-- ==== Sys2Proof/Word.lean ====
section
/-! DEFINITION. The word types of the core and two plain helpers for fixed-length tables
(00_scope.md R7, R8). -/

namespace Sys2Proof

/-- A byte, 8 bits (R7). -/
abbrev Byte := BitVec 8

/-- A lane, an unsigned 64-bit word (R7, R15). -/
abbrev Lane := BitVec 64

/-- The 25 lanes of the sponge state (R15). -/
abbrev Lanes := Vector Lane 25

/-- The staging buffer's 144 bytes (R20). -/
abbrev Staging := Vector Byte 144

/-- A command descriptor, 128 bits (R55, R56). -/
abbrev Desc := BitVec 128

/-- A variant selector, the 4-bit field VAR (R57, R60). -/
abbrev Selector := BitVec 4

/-- The table of the values `f 0, f 1, …, f (n-1)`. -/
def tabulate {α : Type} {n : Nat} (f : Fin n → α) : Vector α n := ⟨⟨List.ofFn f⟩, by simp⟩

/-- Entry `i` of a table, `d` past its end (no rule reads past an end, log 18). -/
def nth {α : Type} {n : Nat} (v : Vector α n) (i : Nat) (d : α) : α := v.toList.getD i d

end Sys2Proof
end

