-- ==== Sys2Proof/Config.lean ====
section
/-! DEFINITION. The parameters of the core (00_scope.md R5) and the one value the model chooses for
host memory that nothing has written. -/

namespace Sys2Proof.Config

/-- LANES: lanes in the state (R5). -/
def lanes : Nat := 25

/-- ROUNDS: rounds in one permutation (R5). -/
def rounds : Nat := 24

/-- STATE_BYTES: STATE_BITS / 8, the 200 of the rate formula (R5, R6, R19). -/
def stateBytes : Nat := 200

/-- RATE_MAX: bytes in the staging buffer (R5, D30). -/
def rateMax : Nat := 144

/-- 2^AW, the first natural number that is no host address; AW = 32 (R5, R38). -/
abbrev addrTop : Nat := 2 ^ 32

/-- 2^LENW, the first natural number LEN and CAP cannot hold; LENW = 32 (R5, R61). -/
abbrev lenTop : Nat := 2 ^ 32

/-- What an address that memory does not list reads as. DESIGN CHOICE (log 2), unsafe: the spec gives
no contents of host memory; "not affected by reset" (R140). -/
def unlistedByte : Byte := 0x00

end Sys2Proof.Config
end

