-- ==== Sys2Proof/Syntax.lean ====
section
/-! DEFINITION. The commands as syntax: one constructor of Instr per row of spec/opcode_table.json, the
eight variants, and the written form of a command (30_encoding.md R59, R60, R61, R67, R68). -/

namespace Sys2Proof

/-- The eight digest variants (R6, R60). -/
inductive Variant where
  | keccak224 | keccak256 | keccak384 | keccak512
  | sha3224 | sha3256 | sha3384 | sha3512
deriving DecidableEq, Repr

/-- The output operand of FINALIZE (R57, R58, R62). -/
inductive OutBuffer where
  /-- NB = 1: no output buffer; CAP and DST are ignored. -/
  | noBuffer
  /-- NB = 0: a buffer of `cap` bytes at address `dst`. -/
  | buffer (cap dst : Nat)
deriving DecidableEq, Repr

/-- The four commands (R59). Addresses and byte counts are natural numbers, each the `zext` of its
descriptor word (R9, R61); WellFormed says which of them a word can hold. Operand words a command ignores
(R58) are no part of it. -/
inductive Instr where
  /-- INIT VAR (R99). -/
  | init (var : Selector)
  /-- UPDATE SRC, LEN (R101). -/
  | update (src len : Nat)
  /-- FINALIZE, with a buffer or without (R105). -/
  | finalize (out : OutBuffer)
  /-- HASH VAR, SRC, LEN, DST (R108). -/
  | hash (var : Selector) (src len dst : Nat)
deriving DecidableEq, Repr

/-- The `<variant>` of a written command: one of the eight names, or `#n` (R67). -/
inductive WrittenVariant where
  | named (v : Variant)
  | raw (n : Selector)
deriving DecidableEq, Repr

/-- A command as it is written (R67), with the pseudo-commands `FINALIZE none` and `DIGEST <dst>` (R68).
The operands stand in the written order. -/
inductive Written where
  | init (v : WrittenVariant)
  | update (src len : Nat)
  | finalize (dst cap : Nat)
  | finalizeNone
  | hash (v : WrittenVariant) (src len dst : Nat)
  | digest (dst : Nat)
deriving DecidableEq, Repr

end Sys2Proof
end

