-- ==== Sys2Proof/WellFormed.lean ====
section
/-! DEFINITION. Which commands a descriptor can hold: every address and byte count fits its 32-bit word
(30_encoding.md R56, R61, R67). A selector is 4 bits by its type; one of 8 to 15 is well formed, since an
invalid selector is rejected by the command's rule and not by the decoder (R62). -/

namespace Sys2Proof

/-- The operand fits an address word, SRC or DST (R56, R61). -/
def fitsAddr (n : Nat) : Bool := decide (n < Config.addrTop)

/-- The operand fits a count word, LEN or CAP (R56, R61). -/
def fitsLen (n : Nat) : Bool := decide (n < Config.lenTop)

/-- The output operand of a FINALIZE fits its words. -/
def OutBuffer.wf : OutBuffer → Bool
  | .noBuffer => true
  | .buffer cap dst => fitsLen cap && fitsAddr dst

/-- The command fits a descriptor. -/
def Instr.wf : Instr → Bool
  | .init _ => true
  | .update src len => fitsAddr src && fitsLen len
  | .finalize out => out.wf
  | .hash _ src len dst => fitsAddr src && fitsLen len && fitsAddr dst

end Sys2Proof
end

