-- ==== Sys2Proof/Decode.lean ====
section
/-! DEFINITION. The descriptor, its decoder and its encoder (30_encoding.md R55 to R69). -/

namespace Sys2Proof

/-- Word `k` of the descriptor, k = 0 to 3: W0 is DESC[31:0], W3 is DESC[127:96] (R56). -/
def descWord (d : Desc) (k : Nat) : BitVec 32 := d.extractLsb' (32 * k) 32

/-- The descriptor made of four words, W3 on the left (R56). -/
def descOfWords (w0 w1 w2 w3 : BitVec 32) : Desc := w3 ++ w2 ++ w1 ++ w0

/-- RSV, bits 31:9 of W0 (R57). -/
def fieldRsv (w0 : BitVec 32) : BitVec 23 := w0.extractLsb' 9 23

/-- NB, bit 8 of W0 (R57). -/
def fieldNb (w0 : BitVec 32) : Bool := w0.getLsbD 8

/-- VAR, bits 7:4 of W0 (R57). -/
def fieldVar (w0 : BitVec 32) : Selector := w0.extractLsb' 4 4

/-- OP, bits 3:0 of W0 (R57). -/
def fieldOp (w0 : BitVec 32) : BitVec 4 := w0.extractLsb' 0 4

/-- Why a descriptor encodes no command: the four kinds of R63. -/
inductive IllegalReason where
  /-- RSV is not zero. -/
  | reservedBits
  /-- OP is 0x0 or 0x5 to 0xF. -/
  | reservedOpcode
  /-- NB = 1 and OP is not FINALIZE. -/
  | noBufferFlag
  /-- VAR is not zero and OP is UPDATE or FINALIZE. -/
  | variantField
deriving DecidableEq, Repr

/-- What the decoder answers: a command, or why there is none (R62). -/
inductive Decoded where
  | command (i : Instr)
  | illegal (why : IllegalReason)
deriving DecidableEq, Repr

/-- The decoder, total on all descriptors; it looks only at W0 to choose the command (R62). -/
def decode (d : Desc) : Decoded :=
  let w0 := descWord d 0
  let w1 := (descWord d 1).toNat
  let w2 := (descWord d 2).toNat
  let w3 := (descWord d 3).toNat
  if fieldRsv w0 ≠ 0 then .illegal .reservedBits
  else match (fieldOp w0).toNat with
    | 1 => if fieldNb w0 then .illegal .noBufferFlag else .command (.init (fieldVar w0))
    | 2 => if fieldNb w0 then .illegal .noBufferFlag
           else if fieldVar w0 ≠ 0 then .illegal .variantField
           else .command (.update w1 w2)
    | 3 => if fieldVar w0 ≠ 0 then .illegal .variantField
           else if fieldNb w0 then .command (.finalize .noBuffer)
           else .command (.finalize (.buffer w2 w3))
    | 4 => if fieldNb w0 then .illegal .noBufferFlag
           else .command (.hash (fieldVar w0) w1 w2 w3)
    | _ => .illegal .reservedOpcode

/-- A command word W0 from its fields, RSV = 0 (R57). -/
def commandWord (nb : Bool) (var : Selector) (op : BitVec 4) : BitVec 32 :=
  (0 : BitVec 23) ++ BitVec.ofBool nb ++ var ++ op

/-- The descriptor of a command; words the command ignores are zero (R58, R59, R67). -/
def encode : Instr → Desc
  | .init var => descOfWords (commandWord false var 1) 0 0 0
  | .update src len => descOfWords (commandWord false 0 2) (BitVec.ofNat 32 src) (BitVec.ofNat 32 len) 0
  | .finalize .noBuffer => descOfWords (commandWord true 0 3) 0 0 0
  | .finalize (.buffer cap dst) =>
    descOfWords (commandWord false 0 3) 0 (BitVec.ofNat 32 cap) (BitVec.ofNat 32 dst)
  | .hash var src len dst =>
    descOfWords (commandWord false var 4) (BitVec.ofNat 32 src) (BitVec.ofNat 32 len) (BitVec.ofNat 32 dst)

/-- The selector that names a variant (R60). -/
def Variant.selector : Variant → Selector
  | .keccak224 => 0
  | .keccak256 => 1
  | .keccak384 => 2
  | .keccak512 => 3
  | .sha3224 => 4
  | .sha3256 => 5
  | .sha3384 => 6
  | .sha3512 => 7

/-- The selector of a written variant (R67). -/
def WrittenVariant.selector : WrittenVariant → Selector
  | .named v => v.selector
  | .raw n => n

/-- The command a written command stands for (R67, R68); `dlen` is DLEN of the current context, which only
`DIGEST` uses. -/
def Written.assemble (dlen : Nat) : Written → Instr
  | .init v => .init v.selector
  | .update src len => .update src len
  | .finalize dst cap => .finalize (.buffer cap dst)
  | .finalizeNone => .finalize .noBuffer
  | .hash v src len dst => .hash v.selector src len dst
  | .digest dst => .finalize (.buffer dlen dst)

/-- The 16 bytes of a descriptor where a platform stores it in bytes: little-endian, byte 0 is DESC[7:0]
(R66). The core itself never sees them. -/
def descBytes (d : Desc) : Vector Byte 16 := tabulate fun k => d.extractLsb' (8 * k.val) 8

/-- The descriptor that 16 stored bytes hold (R66). -/
def descOfBytes (b : Vector Byte 16) : Desc :=
  BitVec.ofNat 128 (b.toList.foldr (fun x acc => x.toNat + 2 ^ 8 * acc) 0)

/-- The descriptor whose bits are `w`, of which the opcode table gives the low `nbits`; the bits above are 0
(the operand words the table gives no bits). -/
def tableDesc (nbits w : Nat) : Desc := BitVec.ofNat 128 (w % 2 ^ nbits)

/-- What the decoder reads from an instruction of the opcode table. -/
def decodeTableWord (nbits w : Nat) : Option Instr :=
  match decode (tableDesc nbits w) with
  | .command i => some i
  | .illegal _ => none

end Sys2Proof
end

