-- ==== Sys2Proof/Machine/Engine.lean ====
section
/-! DEFINITION. The Permutation Engine: the constant tables (10_state.md R33, R34, R35) and Keccak-f[1600]
(40_permutation_engine.md R73 to R85), each step a function from 25 lanes to 25 lanes. -/

namespace Sys2Proof.Machine

/-- The rows of R33's table: row r holds RC[r] and RC[r + 12]. -/
def roundConstantRows : Vector (Lane × Lane) 12 := #v[
  (0x0000000000000001, 0x000000008000808B),
  (0x0000000000008082, 0x800000000000008B),
  (0x800000000000808A, 0x8000000000008089),
  (0x8000000080008000, 0x8000000000008003),
  (0x000000000000808B, 0x8000000000008002),
  (0x0000000080000001, 0x8000000000000080),
  (0x8000000080008081, 0x000000000000800A),
  (0x8000000000008009, 0x800000008000000A),
  (0x000000000000008A, 0x8000000080008081),
  (0x0000000000000088, 0x8000000000008080),
  (0x0000000080008009, 0x0000000080000001),
  (0x000000008000000A, 0x8000000080008008)]

/-- RC[r], the round constants (R33): the left column of the table is rounds 0 to 11, the right one 12 to 23. -/
def roundConstants : Vector Lane 24 := tabulate fun r =>
  let row := nth roundConstantRows (r.val % 12) (0, 0)
  if r.val < 12 then row.1 else row.2

/-- RHO[i], the rotation amounts by lane index (R34). -/
def rhoOffsets : Vector Nat 25 := #v[
  0, 1, 62, 28, 27, 36, 44, 6, 55, 20, 3, 10, 43, 25, 39, 41, 45, 15, 21, 8, 18, 2, 61, 56, 14]

/-- PI[i], the index to which lane i moves (R35). -/
def piTarget : Vector Nat 25 := #v[
  0, 10, 20, 5, 15, 16, 1, 11, 21, 6, 7, 17, 2, 12, 22, 23, 8, 18, 3, 13, 14, 24, 9, 19, 4]

/-- PISRC[j], the index from which lane j comes, the inverse of PI (R35). -/
def piSource : Vector Nat 25 := #v[
  0, 6, 12, 18, 24, 3, 9, 10, 16, 22, 1, 7, 13, 19, 20, 4, 5, 11, 17, 23, 2, 8, 14, 15, 21]

/-- A[i] (R15). -/
def lane (A : Lanes) (i : Nat) : Lane := nth A i 0

/-- A[x,y], the lane in column x and row y (R16). -/
def laneAt (A : Lanes) (x y : Nat) : Lane := lane A (x + 5 * y)

/-- All 25 lanes zero. -/
def zeroLanes : Lanes := tabulate fun _ => 0

/-- ROTL64(v, n), 0 <= n <= 63 (R73). -/
def rotl64 (v : Lane) (n : Nat) : Lane := (v <<< n) ||| (v >>> (64 - n))

/-- C[x], the parity of column x, for x = 0 to 4 (R76). -/
def columnParity (A : Lanes) : Vector Lane 5 :=
  tabulate fun x => lane A x.val ^^^ lane A (x.val + 5) ^^^ lane A (x.val + 10) ^^^ lane A (x.val + 15) ^^^
    lane A (x.val + 20)

/-- D[x] from the parities: the column to the left, and the column to the right rotated by one (R76, R77). -/
def diffusion (C : Vector Lane 5) : Vector Lane 5 :=
  tabulate fun x => nth C ((x.val + 4) % 5) 0 ^^^ rotl64 (nth C ((x.val + 1) % 5) 0) 1

/-- THETA (R76, R78). -/
def theta (A : Lanes) : Lanes :=
  tabulate fun i => lane A i.val ^^^ nth (diffusion (columnParity A)) (i.val % 5) 0

/-- RHO (R79). -/
def rho (A : Lanes) : Lanes := tabulate fun i => rotl64 (lane A i.val) (nth rhoOffsets i.val 0)

/-- PI, in the form A'[j] <- A[PISRC[j]] (R80). -/
def pi (A : Lanes) : Lanes := tabulate fun j => lane A (nth piSource j.val 0)

/-- CHI: row y = i / 5, column x = i mod 5 (R81, R82). -/
def chi (A : Lanes) : Lanes := tabulate fun i =>
  lane A i.val ^^^
    (~~~ laneAt A ((i.val % 5 + 1) % 5) (i.val / 5) &&& laneAt A ((i.val % 5 + 2) % 5) (i.val / 5))

/-- IOTA with round index r (R83). -/
def iota (A : Lanes) (r : Nat) : Lanes :=
  tabulate fun i => if i.val = 0 then lane A 0 ^^^ nth roundConstants r 0 else lane A i.val

/-- ROUND (R75, R84). -/
def round (A : Lanes) (r : Nat) : Lanes := iota (chi (pi (rho (theta A)))) r

/-- The rounds r, r + 1, …, r + n - 1 in that order (R85). -/
def roundsFrom : Nat → Nat → Lanes → Lanes
  | 0, _, A => A
  | n + 1, r, A => roundsFrom n (r + 1) (round A r)

/-- KECCAKF1600: the 24 rounds 0 to 23 (R74, R85). -/
def keccakF1600 (A : Lanes) : Lanes := roundsFrom Config.rounds 0 A

end Sys2Proof.Machine
end

