-- ==== Sys2Proof/Machine/State.lean ====
section
/-! DEFINITION. The state of one core instance, its host and its host memory (10_state.md, 20_memory.md),
the status codes (60_exceptions.md R119), the ways a step can stop, and the state after reset
(70_reset_and_hazards.md R139, R140). -/

namespace Sys2Proof.Machine

/-- The status a command ends with (60_exceptions.md R119); codes 6 to 15 are never returned. -/
inductive Status where
  /-- 0: the command had its effect. -/
  | ok
  /-- 1: INIT or HASH with a selector of 8 to 15 (R120). -/
  | configurationError
  /-- 2: FINALIZE with a buffer smaller than the digest (R125). -/
  | bufferTooSmallError
  /-- 3: a descriptor that encodes no command (R121). -/
  | illegalCommandError
  /-- 4: a range that passes the top of the address space (R122). -/
  | addressRangeError
  /-- 5: UPDATE or FINALIZE before any context exists (R123). -/
  | noContextError
deriving DecidableEq, Repr

/-- What the host does between commands (00_scope.md R10, 20_memory.md R47, R48; log 4). -/
inductive HostAction where
  /-- Present a descriptor on the command port (30_encoding.md R55). -/
  | issue (desc : Desc)
  /-- Store a byte into host memory, which the host owns (20_memory.md R37). -/
  | store (addr : BitVec 32) (b : Byte)
deriving DecidableEq, Repr

/-- A run of host addresses, `base` to `base + size - 1`. -/
structure Region where
  base : Nat
  size : Nat
deriving DecidableEq, Repr

/-- Host memory: the bytes that differ from what an unlisted address reads as, by rising address. -/
abbrev Memory := List Host.Cell

/-- The canonical form from address `lo` on: addresses strictly rising and below 2^32, no entry equal to what
an unlisted address reads as. -/
def Memory.wfFrom (lo : Nat) : Memory → Bool
  | [] => true
  | (a, b) :: rest =>
    decide (lo ≤ a) && decide (a < Config.addrTop) && decide (b ≠ Config.unlistedByte) &&
      Memory.wfFrom (a + 1) rest

/-- The memory is in canonical form. -/
def Memory.wf (m : Memory) : Bool := Memory.wfFrom 0 m

/-- The ways a step stops with a fault: none. "Nothing in the core hangs and nothing is stuck: every command
returns a status after a bounded amount of work" (R135), and every error of R119 is a status, not a stop. -/
inductive Fault where
deriving DecidableEq, Repr

/-- The ways a step has no meaning. -/
inductive Refusal where
  /-- Raised by exec's arm of an instruction that has no meaning yet (no arm does). Safe. -/
  | notModelled (mnemonic : String)
  /-- Raised by UPDATE, FINALIZE, HASH and a host store that would touch an address outside HM_ADMIT, after
  every check of the command has passed: "a model must refuse the command (give it no outcome), which errs
  toward unprovable" (20_memory.md R43, D24). Safe. -/
  | unbackedAddress
deriving DecidableEq, Repr

/-- One core instance, the host's pending actions and host memory. -/
structure State where
  /-- A[0..24], the lanes (R15). -/
  a : Lanes
  /-- STG[0..143], the staging buffer (R20). -/
  stg : Staging
  /-- BUFLEN, the number of staged bytes (R22). -/
  bufLen : BitVec 8
  /-- RATE, the block size in bytes (R24). -/
  rate : BitVec 8
  /-- FIN: the context is Finalized (R26). -/
  fin : Bool
  /-- PAD: the padding family, true for SHA-3 (R29). -/
  pad : Bool
  /-- VALID: a context exists (R30). -/
  valid : Bool
  /-- HM, host memory (R38). -/
  hm : Memory
  /-- HM_ADMIT, the platform's parameter: the addresses backed by memory (R5, R38, D24; log 3). -/
  hmAdmit : List Region
  /-- The command port's input: what the host does next, oldest first (R32, R47, R55; log 4). -/
  port : List HostAction
  /-- The status port's output: the status of the command the last step ended, if it ended one (R119, R126;
  log 5). -/
  status : Option Status
deriving DecidableEq, Repr

/-- The machine right after reset: VALID is 0, the core is idle and Empty (R139). The zeros of A, STG, BUFLEN,
RATE, FIN and PAD are the model's choice (DESIGN CHOICE, log 1); HM_ADMIT is R5's default, every address
(log 3). -/
def State.reset : State where
  a := tabulate fun _ => 0
  stg := tabulate fun _ => 0
  bufLen := 0
  rate := 0
  fin := false
  pad := false
  valid := false
  hm := []
  hmAdmit := [⟨0, Config.addrTop⟩]
  port := []
  status := none

end Sys2Proof.Machine
end

