-- ==== Sys2Proof/Machine/Flags.lean ====
section
/-! DEFINITION. The status numbers (60_exceptions.md R119), the conditions VALID and FIN make
(42_sponge_commands.md R110), and the values derived from RATE and PAD (10_state.md R28). -/

namespace Sys2Proof.Machine

/-- The 4-bit code on the status port (R119). -/
def Status.code : Status → BitVec 4
  | .ok => 0
  | .configurationError => 1
  | .bufferTooSmallError => 2
  | .illegalCommandError => 3
  | .addressRangeError => 4
  | .noContextError => 5

/-- The conditions of the core (R110). -/
inductive Condition where
  /-- VALID = 0: no context yet (R30). -/
  | empty
  /-- VALID = 1, FIN = 0: accepting input (R26). -/
  | active
  /-- VALID = 1, FIN = 1: digest computed, further input ignored (R26). -/
  | finalized
deriving DecidableEq, Repr

/-- The condition VALID and FIN stand for (R110). -/
def State.condition (s : State) : Condition :=
  if s.valid then if s.fin then .finalized else .active else .empty

/-- DSB: 0x06 if PAD = 1, else 0x01 (R28). -/
def domainByte (pad : Bool) : Byte := if pad then 0x06 else 0x01

/-- DLEN = (200 - RATE) div 2 (R28, R105). -/
def digestLen (rate : Nat) : Nat := (Config.stateBytes - rate) / 2

/-- NLANES = RATE div 8 (R28). -/
def laneCount (rate : Nat) : Nat := rate / 8

/-- DLEN of the context the core holds. -/
def State.dlen (s : State) : Nat := digestLen s.rate.toNat

end Sys2Proof.Machine
end

