-- ==== Sys2Proof/Machine/Adapter.lean ====
section
/-! DEFINITION. The Byte-Order Adapter (41_byte_order_adapter.md R87 to R95) and the byte view of the lanes
(10_state.md R18, R19). Blocks are byte sequences, whatever path delivered them (R93, R95). -/

namespace Sys2Proof.Machine

/-- LANEFROMBYTES (R87). -/
def laneFromBytes (b : Vector Byte 8) : Lane := BitVec.ofNat 64
  ((nth b 0 0).toNat + (nth b 1 0).toNat * 2 ^ 8 + (nth b 2 0).toNat * 2 ^ 16 + (nth b 3 0).toNat * 2 ^ 24 +
    (nth b 4 0).toNat * 2 ^ 32 + (nth b 5 0).toNat * 2 ^ 40 + (nth b 6 0).toNat * 2 ^ 48 +
    (nth b 7 0).toNat * 2 ^ 56)

/-- Byte k of a lane, bits 8k+7 down to 8k (R18). -/
def laneByte (L : Lane) (k : Nat) : Byte := (L >>> (8 * k)).setWidth 8

/-- BYTESFROMLANE (R88). -/
def bytesFromLane (L : Lane) : Vector Byte 8 := tabulate fun k => laneByte L k.val

/-- SB[j], the byte view of the state (R19). -/
def stateByte (A : Lanes) (j : Nat) : Byte := laneByte (lane A (j / 8)) (j % 8)

/-- The eight bytes blk[k .. k+7]. -/
def eightBytes (blk : List Byte) (k : Nat) : Vector Byte 8 := tabulate fun j => blk.getD (k + j.val) 0

/-- XORBLOCK: the block, RATE bytes, into the first RATE / 8 lanes; no other lane is read or written (R89,
R90). -/
def xorBlock (rate : Nat) (blk : List Byte) (A : Lanes) : Lanes := tabulate fun i =>
  if i.val < laneCount rate then lane A i.val ^^^ laneFromBytes (eightBytes blk (8 * i.val)) else lane A i.val

/-- EXTRACT: the first n bytes of the byte view (R91). -/
def extract (A : Lanes) (n : Nat) : List Byte := (List.range n).map fun j => stateByte A j

/-- ABSORBBLOCK: the XOR, then exactly one permutation (R92). -/
def absorbBlock (rate : Nat) (blk : List Byte) (A : Lanes) : Lanes := keccakF1600 (xorBlock rate blk A)

end Sys2Proof.Machine
end

