-- ==== Sys2Proof/Machine/Ops.lean ====
section
/-! DEFINITION. The shared operations over host memory (20_memory.md R38 to R45) and the one way a command
ends (60_exceptions.md R119, R124). -/

namespace Sys2Proof.Machine

/-- HM[addr]: the byte at a host address (R38). -/
def readByte : Memory → Nat → Byte
  | [], _ => Config.unlistedByte
  | (a, b) :: rest, addr => if a = addr then b else readByte rest addr

/-- Entry `(addr, b)` before `rest`, left out when it says what an unlisted address reads as. -/
def Memory.cons (addr : Nat) (b : Byte) (rest : Memory) : Memory :=
  if b = Config.unlistedByte then rest else (addr, b) :: rest

/-- HM[addr] <- b, keeping the canonical form (R40). -/
def writeByte : Memory → Nat → Byte → Memory
  | [], addr, b => Memory.cons addr b []
  | (a, c) :: rest, addr, b =>
    if a < addr then (a, c) :: writeByte rest addr b
    else if a = addr then Memory.cons addr b rest
    else Memory.cons addr b ((a, c) :: rest)

/-- MemRead(addr, n): the n bytes from addr on, lowest address first; n = 0 touches nothing (R39). -/
def memRead (m : Memory) (addr n : Nat) : List Byte := (List.range n).map fun k => readByte m (addr + k)

/-- MemWrite(addr, len v, v): v[0] at addr, v[k] at addr + k, no other byte (R40). -/
def memWrite : Memory → Nat → List Byte → Memory
  | m, _, [] => m
  | m, addr, b :: v => memWrite (writeByte m addr b) (addr + 1) v

/-- The address belongs to a region of the list. -/
def Region.holds (r : Region) (addr : Nat) : Bool := decide (r.base ≤ addr) && decide (addr < r.base + r.size)

/-- The address is in HM_ADMIT, which lies within the address space (R38, D24). -/
def admits (regions : List Region) (addr : Nat) : Bool :=
  decide (addr < Config.addrTop) && regions.any fun r => r.holds addr

/-- Every address of [addr, addr + n) is in HM_ADMIT (R43). -/
def backed (regions : List Region) (addr n : Nat) : Bool :=
  (List.range n).all fun k => admits regions (addr + k)

/-- The range [addr, addr + n) passes the top of the address space; the sum is on naturals (R9, R43). -/
def pastTop (addr n : Nat) : Bool := decide (Config.addrTop < addr + n)

/-- `raise e`: the command ends at once with status `e`; the core's state and host memory are as they were,
nothing is saved and control goes nowhere (R124, R126, R127). This is all that taking an exception is on this
hardware, and there is nothing to return from. -/
def raise (e : Status) (s : State) : Host.Outcome State Fault Refusal := .next { s with status := some e }

/-- `return OK`: the command ends with status 0 (R97, R119). -/
def complete (s : State) : Host.Outcome State Fault Refusal := .next { s with status := some .ok }

end Sys2Proof.Machine
end

