-- ==== Sys2Proof/Machine/Operands.lean ====
section
/-! DEFINITION. The operand forms of the commands: the variant selector (42_sponge_commands.md R98) and the
byte ranges a command names (20_memory.md R43, R45). -/

namespace Sys2Proof.Machine

/-- What a valid selector stands for (R98). -/
structure VariantParams where
  /-- output_bits (R6). -/
  bits : Nat
  /-- RATE in bytes (R6). -/
  rate : Nat
  /-- PAD (R29). -/
  pad : Bool
deriving DecidableEq, Repr

/-- output_bits of a size field VAR[1:0] (R60, R98). -/
def outputBits (size : BitVec 2) : Nat :=
  match size.toNat with
  | 0 => 224
  | 1 => 256
  | 2 => 384
  | _ => 512

/-- VARPARAMS: the parameters of selector VAR, none for 8 to 15 (R98, R60). -/
def varParams (var : Selector) : Option VariantParams :=
  if 7 < var.toNat then none
  else
    let bits := outputBits (var.extractLsb' 0 2)
    some { bits := bits, rate := Config.stateBytes - 2 * (bits / 8), pad := var.getLsbD 2 }

/-- The number of digest bytes a variant gives, output_bits / 8 (R6). -/
def VariantParams.dlen (p : VariantParams) : Nat := p.bits / 8

/-- The range an output operand makes a FINALIZE write, address and length: exactly DLEN bytes at DST, none
without a buffer (R45, R106 (a), (c)). -/
def outRange (dlen : Nat) : OutBuffer → Nat × Nat
  | .noBuffer => (0, 0)
  | .buffer _ dst => (dst, dlen)

end Sys2Proof.Machine
end

