-- ==== Sys2Proof/Machine/Sponge.lean ====
section
/-! DEFINITION. The Sponge Context and the four commands (42_sponge_commands.md). The state changes of INIT,
UPDATE and FINALIZE are functions of their own, since HASH is their composition (R108); the meanings execInit,
execUpdate, execFinalize and execHash are the checks of R97 and R128 around them. -/

namespace Sys2Proof.Machine

/-- STG[at .. at + len v - 1] <- v; positions past the buffer do not exist (R20). -/
def stgWrite (stg : Staging) (start : Nat) (v : List Byte) : Staging := tabulate fun k =>
  if start ≤ k.val ∧ k.val < start + v.length then v.getD (k.val - start) 0 else nth stg k.val 0

/-- STG[0 .. n-1] (R8). -/
def staged (stg : Staging) (n : Nat) : List Byte := stg.toList.take n

/-- STG[k] <- STG[k] OR b. -/
def stgOr (stg : Staging) (k : Nat) (b : Byte) : Staging :=
  tabulate fun i => if i.val = k then nth stg i.val 0 ||| b else nth stg i.val 0

/-- INIT's effect once the selector is valid (R99). -/
def initContext (p : VariantParams) (s : State) : State :=
  { s with
    a := zeroLanes
    stg := tabulate fun _ => 0
    bufLen := 0
    rate := BitVec.ofNat 8 p.rate
    pad := p.pad
    fin := false
    valid := true }

/-- The loop of UPDATE: `count` blocks of RATE bytes of host memory from `addr` on, lowest first (R101). -/
def absorbFrom (m : Memory) (rate : Nat) : Nat → Nat → Lanes → Lanes
  | 0, _, A => A
  | count + 1, addr, A => absorbFrom m rate count (addr + rate) (absorbBlock rate (memRead m addr rate) A)

/-- UPDATE from an empty staging buffer: absorb whole blocks while RATE bytes or more remain, `len` div RATE
of them (R110), and stage the rest (R101). -/
def absorbInput (src len : Nat) (s : State) : State :=
  let rate := s.rate.toNat
  let count := len / rate
  let p := count * rate
  { s with
    a := absorbFrom s.hm rate count src s.a
    stg := stgWrite s.stg 0 (memRead s.hm (src + p) (len - p))
    bufLen := BitVec.ofNat 8 (len - p) }

/-- UPDATE's effect on an Active context (R101): top up a partly filled buffer, absorb it if it completes,
then absorb the rest of the input. -/
def updateContext (src len : Nat) (s : State) : State :=
  let n := s.bufLen.toNat
  let rate := s.rate.toNat
  let need := rate - n
  if n = 0 then absorbInput src len s
  else if len < need then
    { s with
      stg := stgWrite s.stg n (memRead s.hm src len)
      bufLen := BitVec.ofNat 8 (n + len) }
  else
    let stg := stgWrite s.stg n (memRead s.hm src need)
    absorbInput (src + need) (len - need)
      { s with a := absorbBlock rate (staged stg rate) s.a, stg := stg, bufLen := 0 }

/-- PADBLOCK: zero fill from BUFLEN to RATE, then the domain byte and the terminator, each by OR (R104). -/
def padBlock (stg : Staging) (bufLen rate : Nat) (pad : Bool) : Staging :=
  stgOr (stgOr (stgWrite stg bufLen (List.replicate (rate - bufLen) 0)) bufLen (domainByte pad)) (rate - 1) 0x80

/-- FINALIZE's effect on the context: pad, absorb and close an Active one, nothing on a Finalized one
(R105). -/
def finalizeContext (s : State) : State :=
  if s.fin then s
  else
    let stg := padBlock s.stg s.bufLen.toNat s.rate.toNat s.pad
    { s with
      stg := stg
      a := absorbBlock s.rate.toNat (staged stg s.rate.toNat) s.a
      fin := true
      bufLen := 0 }

/-- MemWrite(DST, dlen, Extract(A, dlen)) (R105). -/
def writeDigest (dst : Nat) (s : State) : State :=
  { s with hm := memWrite s.hm dst (extract s.a s.dlen) }

/-- INIT VAR (R99, R100, R120). -/
def execInit (var : Selector) (s : State) : Host.Outcome State Fault Refusal :=
  match varParams var with
  | none => raise .configurationError s
  | some p => complete (initContext p s)

/-- UPDATE SRC, LEN (R101, R102, R122, R123). -/
def execUpdate (src len : Nat) (s : State) : Host.Outcome State Fault Refusal :=
  if s.valid = false then raise .noContextError s
  else if s.fin then complete s
  else if pastTop src len then raise .addressRangeError s
  else if backed s.hmAdmit src len then complete (updateContext src len s)
  else .refused .unbackedAddress

/-- FINALIZE, with a buffer or without (R105, R106, R107, R122, R123, R125). -/
def execFinalize (out : OutBuffer) (s : State) : Host.Outcome State Fault Refusal :=
  if s.valid = false then raise .noContextError s
  else match out with
    | .noBuffer => complete (finalizeContext s)
    | .buffer cap dst =>
      if cap < s.dlen then raise .bufferTooSmallError s
      else if pastTop dst s.dlen then raise .addressRangeError s
      else if backed s.hmAdmit dst s.dlen then complete (writeDigest dst (finalizeContext s))
      else .refused .unbackedAddress

/-- HASH VAR, SRC, LEN, DST: INIT, UPDATE, FINALIZE in that order, after every check (R108, R109, R120,
R122). -/
def execHash (var : Selector) (src len dst : Nat) (s : State) : Host.Outcome State Fault Refusal :=
  match varParams var with
  | none => raise .configurationError s
  | some p =>
    if pastTop src len || pastTop dst p.dlen then raise .addressRangeError s
    else if backed s.hmAdmit src len && backed s.hmAdmit dst p.dlen then
      complete (writeDigest dst (finalizeContext (updateContext src len (initContext p s))))
    else .refused .unbackedAddress

end Sys2Proof.Machine
end

