-- ==== Sys2Proof/Machine/Dispatch.lean ====
section
/-! DEFINITION. One arm per command: the meaning of each (30_encoding.md R59). -/

namespace Sys2Proof.Machine

def exec (i : Instr) (s : State) : Host.Outcome State Fault Refusal :=
  match i with
  | .init var => Sys2Proof.Machine.execInit var s
  | .update src len => Sys2Proof.Machine.execUpdate src len s
  | .finalize out => Sys2Proof.Machine.execFinalize out s
  | .hash var src len dst => Sys2Proof.Machine.execHash var src len dst s

end Sys2Proof.Machine
end

