-- ==== Sys2Proof/Machine/Port.lean ====
section
/-! DEFINITION. What a step does with the command port: nothing pending, a host store, or a descriptor
(30_encoding.md R55, R62; 42_sponge_commands.md R97). -/

namespace Sys2Proof.Machine

/-- No action is pending: the core "is idle and holds its state" (60_exceptions.md R133); no status is on the
status port (R126, log 5). -/
def idle (s : State) : Host.Outcome State Fault Refusal := .next { s with status := none }

/-- The host stores a byte into host memory between two commands (20_memory.md R37, R47); outside HM_ADMIT
there is no memory to store to (D24), and the refusal of such a store is the model's choice (log 3). -/
def hostStore (addr : Nat) (b : Byte) (s : State) : Host.Outcome State Fault Refusal :=
  if admits s.hmAdmit addr then .next { s with hm := writeByte s.hm addr b, status := none }
  else .refused .unbackedAddress

/-- The core takes a descriptor: decode, then the command (R97); an illegal one ends with
IllegalCommandError (R121). -/
def runDesc (d : Desc) (s : State) : Host.Outcome State Fault Refusal :=
  match decode d with
  | .command i => exec i s
  | .illegal _ => raise .illegalCommandError s

/-- One action of the host, already taken off the port. -/
def takeAction (action : HostAction) (s : State) : Host.Outcome State Fault Refusal :=
  match action with
  | .issue d => runDesc d s
  | .store addr b => hostStore addr.toNat b s

end Sys2Proof.Machine
end

