-- ==== Sys2Proof/Machine/Step.lean ====
section
/-! DEFINITION. One step of the machine, and how an instruction is put where the next step takes it. -/

namespace Sys2Proof.Machine

/-- One step: what the host does next on the command port (20_memory.md R47, 60_exceptions.md R133), as
Machine/Port.lean says it. -/
def step (s : State) : Host.Outcome State Fault Refusal :=
  match s.port with
  | [] => idle s
  | action :: rest => takeAction action { s with port := rest }

/-- The state with one instruction of the opcode table, its operand words above `nbits` zero, presented on
the command port, so that the next step runs it (log 6). -/
def State.withFetchWord (s : State) (nbits w : Nat) : State :=
  { s with port := .issue (tableDesc nbits w) :: s.port }

end Sys2Proof.Machine
end

