-- ==== Sys2Proof/Machine/Digest.lean ====
section
/-! DEFINITION. The digest as a function of the message, apart from any machine state (42_sponge_commands.md
R111), and the split of a message into blocks (R103). -/

namespace Sys2Proof.Machine

/-- pad(m): the domain byte, the least number of zero bytes, the byte 0x80, up to a positive multiple of the
rate; one byte DSB OR 0x80 when only one byte of room is left (R111). -/
def padMessage (rate : Nat) (dsb : Byte) (m : List Byte) : List Byte :=
  let room := rate - m.length % rate
  if room = 1 then m ++ [dsb ||| 0x80]
  else m ++ [dsb] ++ List.replicate (room - 2) 0 ++ [0x80]

/-- Block k of a byte sequence, m[k*rate .. (k+1)*rate - 1] (R103). -/
def blockAt (rate : Nat) (m : List Byte) (k : Nat) : List Byte := (m.drop (k * rate)).take rate

/-- The whole blocks of a byte sequence, first to last (R103). -/
def wholeBlocks (rate : Nat) (m : List Byte) : List (List Byte) :=
  (List.range (m.length / rate)).map fun k => blockAt rate m k

/-- The bytes of a sequence after its last whole block, m[q*rate ..] with q = len div rate (R103). -/
def remainder (rate : Nat) (m : List Byte) : List Byte := m.drop (m.length / rate * rate)

/-- AbsorbBlock of each block in turn (R103, R111). -/
def absorbBlocks (rate : Nat) (blocks : List (List Byte)) (A : Lanes) : Lanes :=
  blocks.foldl (fun A blk => absorbBlock rate blk A) A

/-- digest(variant, m) (R111). -/
def digestOf (p : VariantParams) (m : List Byte) : List Byte :=
  extract (absorbBlocks p.rate (wholeBlocks p.rate (padMessage p.rate (domainByte p.pad) m)) zeroLanes) p.dlen

end Sys2Proof.Machine
end

