-- ==== Sys2Proof/Safety.lean ====
section
/-! DEFINITION. The terms claims use: the invariant of the machine, what a command leaves alone, and what one
sees from outside. -/

namespace Sys2Proof.Machine

/-- RATE is one of the four legal values (10_state.md R24). -/
def legalRate (rate : Nat) : Bool := decide (rate ∈ [72, 104, 136, 144])

/-- A context, where there is one, has a legal RATE, fewer than RATE staged bytes (10_state.md R23, R24), and
none once it is Finalized (42_sponge_commands.md R106 (g)). -/
def State.contextOk (s : State) : Bool :=
  !s.valid ||
    (legalRate s.rate.toNat && decide (s.bufLen.toNat < s.rate.toNat) && (!s.fin || decide (s.bufLen.toNat = 0)))

/-- Host memory is in canonical form and lists only addresses that exist (20_memory.md R38). -/
def State.memoryOk (s : State) : Bool := s.hm.wf && s.hm.all fun cell => admits s.hmAdmit cell.1

/-- The invariant every step keeps. -/
def State.inv (s : State) : Bool := s.contextOk && s.memoryOk

/-- The context of the core: A, STG[0 .. BUFLEN-1], BUFLEN, RATE, FIN, PAD, VALID. STG[BUFLEN .. 143] carries
no meaning between commands (10_state.md R21). -/
structure ContextView where
  a : Lanes
  input : List Byte
  bufLen : BitVec 8
  rate : BitVec 8
  fin : Bool
  pad : Bool
  valid : Bool
deriving DecidableEq, Repr

/-- The context of a state. -/
def State.context (s : State) : ContextView where
  a := s.a
  input := staged s.stg s.bufLen.toNat
  bufLen := s.bufLen
  rate := s.rate
  fin := s.fin
  pad := s.pad
  valid := s.valid

/-- The range [addr, addr + n) lies in the address space and is backed by memory (20_memory.md R43). -/
abbrev usable (s : State) (addr n : Nat) : Prop :=
  addr + n ≤ Config.addrTop ∧ backed s.hmAdmit addr n = true

/-- Every byte of host memory outside [addr, addr + n) reads in `t` as in `s`. -/
def sameOutside (addr n : Nat) (s t : State) : Prop :=
  ∀ k : Nat, (k < addr ∨ addr + n ≤ k) → readByte t.hm k = readByte s.hm k

/-- The states agree on VALID, host memory, HM_ADMIT and the ports; A, STG, BUFLEN, RATE, FIN and PAD, whose
reset values the spec leaves unspecified (70_reset_and_hazards.md R139), may differ. -/
def agreeButContext (s t : State) : Prop :=
  s.valid = t.valid ∧ s.hm = t.hm ∧ s.hmAdmit = t.hmAdmit ∧ s.port = t.port ∧ s.status = t.status

/-- The states agree on all but the contents of host memory. -/
def agreeButMemory (s t : State) : Prop := t = { s with hm := t.hm }

/-- Two outcomes of the same kind, with related next states or equal reasons. -/
def sameOutcome (R : State → State → Prop) :
    Host.Outcome State Fault Refusal → Host.Outcome State Fault Refusal → Prop
  | .next s, .next t => R s t
  | .fault f, .fault g => f = g
  | .refused r, .refused q => r = q
  | _, _ => False

/-- Running a list of commands one after the other, stopping at the first that has no next state. -/
def execAll : List Instr → State → Host.Outcome State Fault Refusal
  | [], s => .next s
  | i :: is, s =>
    match exec i s with
    | .next t => execAll is t
    | .fault f => .fault f
    | .refused r => .refused r

/-- One UPDATE per chunk, each chunk an address and a length (42_sponge_commands.md R112). -/
def updates (chunks : List (Nat × Nat)) : List Instr := chunks.map fun c => .update c.1 c.2

/-- The bytes of the chunks, one after the other: c1 ‖ c2 ‖ … ‖ cn (R112). -/
def gather (m : Memory) (chunks : List (Nat × Nat)) : List Byte := chunks.flatMap fun c => memRead m c.1 c.2

/-- The states a run from `s₀` passes through. -/
inductive ReachableFrom (s₀ : State) : State → Prop where
  | start : ReachableFrom s₀ s₀
  | next {s t : State} : ReachableFrom s₀ s → step s = .next t → ReachableFrom s₀ t

end Sys2Proof.Machine
end

