-- ==== Sys2Proof/Certificates/Slice0/Obligations.lean ====
section
/-! DEFINITION. The statements about the model, from the numbered rules of spec/. Hypotheses on the state:
`inv` is the invariant every step keeps (StepKeepsInvariant), `contextOk` and `memoryOk` are its two halves. -/

open Sys2Proof Sys2Proof.Machine

/-! ### Encoding (30_encoding.md) -/

/-- Decoding the encoding of a well-formed command gives it back, with every operand (R56, R57, R59, R62). -/
def Obligations.DecodeEncodeRoundTrip : Prop :=
  ∀ i : Instr, i.wf = true → decode (encode i) = .command i

/-- R64: "A descriptor is command X exactly when `(W0 AND mask) = match`", for the four rows, and every W0 that
matches none of them is Illegal. -/
def Obligations.DecodeByMatchAndMask : Prop :=
  ∀ d : Desc,
    ((∃ var, decode d = .command (.init var)) ↔ descWord d 0 &&& 0xFFFFFF0F = 0x00000001) ∧
    ((∃ src len, decode d = .command (.update src len)) ↔ descWord d 0 &&& 0xFFFFFFFF = 0x00000002) ∧
    ((∃ out, decode d = .command (.finalize out)) ↔ descWord d 0 &&& 0xFFFFFEFF = 0x00000003) ∧
    ((∃ var src len dst, decode d = .command (.hash var src len dst)) ↔
      descWord d 0 &&& 0xFFFFFF0F = 0x00000004) ∧
    ((∃ why, decode d = .illegal why) ↔
      descWord d 0 &&& 0xFFFFFF0F ≠ 0x00000001 ∧ descWord d 0 &&& 0xFFFFFFFF ≠ 0x00000002 ∧
      descWord d 0 &&& 0xFFFFFEFF ≠ 0x00000003 ∧ descWord d 0 &&& 0xFFFFFF0F ≠ 0x00000004)

/-- R63: the reserved and illegal encodings, all of them, and each is IllegalCommandError with nothing
changed. OP is DESC[3:0], VAR DESC[7:4], NB DESC[8], RSV DESC[31:9]. -/
def Obligations.IllegalDescriptorsExactly : Prop :=
  ∀ (d : Desc) (s : State),
    let op := (d.extractLsb' 0 4).toNat
    let var := (d.extractLsb' 4 4).toNat
    let nb := d.getLsbD 8
    let rsv := (d.extractLsb' 9 23).toNat
    ((∃ why, decode d = .illegal why) ↔
      (op = 0 ∨ 5 ≤ op) ∨ rsv ≠ 0 ∨ (nb = true ∧ op ≠ 3) ∨ (var ≠ 0 ∧ (op = 2 ∨ op = 3))) ∧
    ((∃ why, decode d = .illegal why) → runDesc d s = .next { s with status := some .illegalCommandError })

/-- Each operand is the unsigned value of its own bits of the descriptor, and nothing else of the operand words
counts (R56, R58, R61). -/
def Obligations.DecodeReadsOperandWords : Prop :=
  ∀ d : Desc,
    let w1 := (d.extractLsb' 32 32).toNat
    let w2 := (d.extractLsb' 64 32).toNat
    let w3 := (d.extractLsb' 96 32).toNat
    (descWord d 0 &&& 0xFFFFFF0F = 0x1 → decode d = .command (.init (d.extractLsb' 4 4))) ∧
    (descWord d 0 = 0x002 → decode d = .command (.update w1 w2)) ∧
    (descWord d 0 = 0x003 → decode d = .command (.finalize (.buffer w2 w3))) ∧
    (descWord d 0 = 0x103 → decode d = .command (.finalize .noBuffer)) ∧
    (descWord d 0 &&& 0xFFFFFF0F = 0x4 → decode d = .command (.hash (d.extractLsb' 4 4) w1 w2 w3))

/-- A decoded command fits a descriptor, and encoding it gives back the command word it was read from (R57,
R61): no bit of W0 is dropped. -/
def Obligations.DecodedCommandKeepsItsCommandWord : Prop :=
  ∀ (d : Desc) (i : Instr), decode d = .command i → i.wf = true ∧ descWord (encode i) 0 = descWord d 0

/-- R69: the worked encodings, from the written form to the descriptor and back, and `UPDATE 0x100, 3` as
bytes. -/
def Obligations.WorkedEncodings : Prop :=
  (∀ row ∈ ([(.init (.named .sha3256), 0x00000000000000000000000000000051),
      (.update 0x100 3, 0x00000000000000030000010000000002),
      (.finalize 0x200 32, 0x00000200000000200000000000000003),
      (.finalizeNone, 0x00000000000000000000000000000103),
      (.hash (.named .keccak256) 0x1000 300 0x2000, 0x000020000000012C0000100000000014),
      (.init (.raw 9), 0x00000000000000000000000000000091)] : List (Written × Desc)),
    encode (row.1.assemble 0) = row.2 ∧ decode row.2 = .command (row.1.assemble 0)) ∧
  (descBytes 0x00000000000000030000010000000002).toList =
    [0x02, 0x00, 0x00, 0x00, 0x00, 0x01, 0x00, 0x00, 0x03, 0x00, 0x00, 0x00, 0x00, 0x00, 0x00, 0x00]

/-- R66: a stored descriptor is little-endian, byte k holding DESC[8k+7 : 8k], and its 16 bytes give it back. -/
def Obligations.StoredDescriptorIsLittleEndian : Prop :=
  ∀ d : Desc, descOfBytes (descBytes d) = d ∧ ∀ k : Nat, k < 16 → nth (descBytes d) k 0 = d.extractLsb' (8 * k) 8

/-! ### One step -/

/-- A step runs the command its descriptor decodes to, on the state with the descriptor taken off the port; an
instruction of the opcode table presented with `withFetchWord` is the next one run (R55, R97; log 4, log 6). -/
def Obligations.StepRunsDecodedCommand : Prop :=
  (∀ (s : State) (d : Desc) (rest : List HostAction) (i : Instr),
    s.port = .issue d :: rest → decode d = .command i → step s = exec i { s with port := rest }) ∧
  (∀ (s : State) (nbits w : Nat) (i : Instr),
    decodeTableWord nbits w = some i → step (s.withFetchWord nbits w) = exec i s)

/-- R121: a descriptor that is none of the four commands ends with IllegalCommandError; the core and host memory
are as they were (the descriptor has left the port, the model's own field: log 4). -/
def Obligations.StepEndsIllegalDescriptor : Prop :=
  ∀ (s : State) (d : Desc) (rest : List HostAction) (why : IllegalReason),
    s.port = .issue d :: rest → decode d = .illegal why →
      step s = .next { s with port := rest, status := some .illegalCommandError }

/-- Without a pending action the core is idle and holds its state (R133), and a host store between commands
changes one byte of backed host memory and nothing of the core (R37, R47). The list of actions and the cleared
status are the model's choice (log 4, log 5), and so is that a host store outside HM_ADMIT is refused (log 3, after
R38 and R135, which speak of the core's accesses). -/
def Obligations.StepIdlesOrTakesHostStore : Prop :=
  (∀ s : State, s.port = [] → step s = .next { s with status := none }) ∧
  (∀ (s : State) (addr : BitVec 32) (b : Byte) (rest : List HostAction),
    s.port = .store addr b :: rest → s.memoryOk = true →
      (admits s.hmAdmit addr.toNat = true → ∃ t, step s = .next t ∧
        t = { s with hm := t.hm, port := rest, status := none } ∧
        ∀ k, readByte t.hm k = if k = addr.toNat then b else readByte s.hm k) ∧
      (admits s.hmAdmit addr.toNat = false → step s = .refused .unbackedAddress))

/-! ### Reset and the invariant -/

/-- Right after reset VALID is 0, the core is Empty and idle (R139), and every host address is backed (R5's
default); that memory lists nothing and no status stands is the model's choice (log 2, log 5). -/
def Obligations.ResetIsEmptyAndIdle : Prop :=
  State.reset.valid = false ∧ State.reset.condition = .empty ∧ State.reset.port = [] ∧
    State.reset.status = none ∧ State.reset.hm = [] ∧
    ∀ a : Nat, admits State.reset.hmAdmit a = decide (a < 2 ^ 32)

/-- The state after reset meets the invariant (log 1, log 2 and log 3 name its values). -/
def Obligations.ResetMeetsInvariant : Prop := State.reset.inv = true

/-- Every step keeps the invariant: legal RATE, BUFLEN < RATE, BUFLEN = 0 once Finalized, canonical memory within
HM_ADMIT (R23, R24, R38, R106). -/
def Obligations.StepKeepsInvariant : Prop :=
  ∀ s t : State, s.inv = true → step s = .next t → t.inv = true

/-- R23: "`buffered_len < rate` always holds between calls"; in every run that starts without a context, whatever
the unspecified fields hold at its start. -/
def Obligations.StagedBytesStayBelowRate : Prop :=
  ∀ s₀ s : State, s₀.valid = false → ReachableFrom s₀ s → s.valid = true →
    s.bufLen.toNat < s.rate.toNat ∧ s.bufLen.toNat ≤ s.rate.toNat - 1 ∧ s.rate.toNat - 1 ≤ 143

/-- One step from two states without a context that differ only in the fields R139 leaves unspecified: the
outcomes agree, and are equal once a context exists (R30, R140). -/
def Obligations.StepHidesUnspecifiedFields : Prop :=
  ∀ s s' : State, s.valid = false → agreeButContext s s' →
    sameOutcome (fun t t' => t = t' ∨ (t.valid = false ∧ agreeButContext t t')) (step s) (step s')

/-- R30: the unspecified reset values of A, STG, BUFLEN, RATE, FIN and PAD can never be observed: whole runs from
two states that differ only in them give the same memory, status and outcome, and the same state once a context
exists. No claim rests on the zeros of log 1. -/
def Obligations.RunsHideUnspecifiedResetValues : Prop :=
  ∀ (k : Nat) (s s' : State), s.valid = false → agreeButContext s s' →
    sameOutcome (fun t t' => t = t' ∨ (t.valid = false ∧ agreeButContext t t'))
      (core.run k s) (core.run k s')

/-! ### INIT -/

/-- R6: the eight variants and their constants, and the facts a model may rely on. -/
def Obligations.VariantTable : Prop :=
  (∀ row ∈ ([(.keccak224, 0, 224, 28, 144, 18, false, 0x01), (.keccak256, 1, 256, 32, 136, 17, false, 0x01),
      (.keccak384, 2, 384, 48, 104, 13, false, 0x01), (.keccak512, 3, 512, 64, 72, 9, false, 0x01),
      (.sha3224, 4, 224, 28, 144, 18, true, 0x06), (.sha3256, 5, 256, 32, 136, 17, true, 0x06),
      (.sha3384, 6, 384, 48, 104, 13, true, 0x06), (.sha3512, 7, 512, 64, 72, 9, true, 0x06)] :
      List (Variant × Selector × Nat × Nat × Nat × Nat × Bool × Byte)),
    let (v, var, bits, dlen, rate, nlanes, pad, dsb) := row
    v.selector = var ∧ varParams var = some ⟨bits, rate, pad⟩ ∧ VariantParams.dlen ⟨bits, rate, pad⟩ = dlen ∧
      laneCount rate = nlanes ∧ domainByte pad = dsb ∧ rate % 8 = 0 ∧ dlen < rate ∧
      dlen = (200 - rate) / 2 ∧ rate + 2 * dlen = 200 ∧ (dlen % 8 ≠ 0 ↔ dlen = 28)) ∧
  ∀ var : Selector, 8 ≤ var.toNat → varParams var = none

/-- R99: INIT VAR writes all of A, STG, BUFLEN, RATE, PAD, FIN and VALID, in every condition of the core, and
nothing else; a selector of 8 to 15 ends with ConfigurationError and nothing written. -/
def Obligations.InitStartsFreshContext : Prop :=
  ∀ (s : State) (var : Selector),
    (var.toNat ≤ 7 → exec (.init var) s = .next { s with
      a := Vector.replicate 25 0, stg := Vector.replicate 144 0, bufLen := 0,
      rate := BitVec.ofNat 8 (200 - 2 * ([224, 256, 384, 512].getD (var.toNat % 4) 0 / 8)),
      pad := decide (4 ≤ var.toNat), fin := false, valid := true, status := some .ok }) ∧
    (7 < var.toNat → exec (.init var) s = .next { s with status := some .configurationError })

/-! ### UPDATE -/

/-- R103: the closed form of UPDATE on an Active context, T being the staged bytes followed by the input. It
writes A, STG and BUFLEN only, and reads nothing outside its range. -/
def Obligations.UpdateAbsorbsClosedForm : Prop :=
  ∀ (s : State) (src len : Nat), s.contextOk = true → s.valid = true → s.fin = false → usable s src len →
    ∃ t, exec (.update src len) s = .next t ∧
      let input := staged s.stg s.bufLen.toNat ++ memRead s.hm src len
      t.a = absorbBlocks s.rate.toNat (wholeBlocks s.rate.toNat input) s.a ∧
      staged t.stg t.bufLen.toNat = remainder s.rate.toNat input ∧
      t.bufLen.toNat = (s.bufLen.toNat + len) % s.rate.toNat ∧
      t = { s with a := t.a, stg := t.stg, bufLen := t.bufLen, status := some .ok }

/-- R54: UPDATE with LEN = 0 reads nothing and changes nothing, whatever SRC is, and FINALIZE never writes zero
bytes, since DLEN >= 28. -/
def Obligations.ZeroLengthUpdateChangesNothing : Prop :=
  ∀ (s : State) (src : Nat), s.contextOk = true → s.valid = true → src < 2 ^ 32 →
    exec (.update src 0) s = .next { s with status := some .ok } ∧ 28 ≤ s.dlen

/-- R102 (e): while the buffered and the new bytes do not fill a block, no permutation runs and the input is
appended to the staged bytes. -/
def Obligations.UpdateBelowOneBlockOnlyStages : Prop :=
  ∀ (s : State) (src len : Nat), s.contextOk = true → s.valid = true → s.fin = false → usable s src len →
    s.bufLen.toNat + len < s.rate.toNat →
    ∃ t, exec (.update src len) s = .next t ∧ t.a = s.a ∧
      staged t.stg t.bufLen.toNat = staged s.stg s.bufLen.toNat ++ memRead s.hm src len ∧
      t = { s with stg := t.stg, bufLen := t.bufLen, status := some .ok }

/-- R115: UPDATE on a Finalized context changes nothing, whatever SRC and LEN are, a range past 2^32 included, and
however the context got there; so after a successful FINALIZE, UPDATE changes nothing at all and every later FINALIZE
answers as without it. -/
def Obligations.UpdateAfterFinalizeIsNoOp : Prop :=
  (∀ (s : State) (src len : Nat), s.valid = true → s.fin = true →
    exec (.update src len) s = .next { s with status := some .ok }) ∧
  ∀ (s t : State) (out : OutBuffer) (src len : Nat),
    exec (.finalize out) s = .next t → t.status = some .ok →
      exec (.update src len) t = .next t ∧
        ∀ out', execAll [.update src len, .finalize out'] t = exec (.finalize out') t

/-- R112: feeding the same bytes in any two ways of splitting them, empty chunks included, from an Active context
leaves the same A, BUFLEN and staged bytes, and every later FINALIZE gives the same memory. -/
def Obligations.StreamingEquivalence : Prop :=
  ∀ (s : State) (chunks chunks' : List (Nat × Nat)),
    s.inv = true → s.valid = true → s.fin = false →
    (∀ c ∈ chunks, usable s c.1 c.2) → (∀ c ∈ chunks', usable s c.1 c.2) →
    gather s.hm chunks = gather s.hm chunks' →
    ∃ t t', execAll (updates chunks) s = .next t ∧ execAll (updates chunks') s = .next t' ∧
      t.context = t'.context ∧
      ∀ out, sameOutcome (fun u u' => u.hm = u'.hm ∧ u.status = u'.status ∧ u.context = u'.context)
        (exec (.finalize out) t) (exec (.finalize out) t')

/-! ### FINALIZE -/

/-- R104: after PadBlock, STG[0 .. RATE-1] is the staged bytes, DSB, zeros, 0x80, or the one byte DSB OR 0x80
(0x86 for SHA-3, 0x81 for Keccak) when one byte of room is left; positions from RATE on stay. -/
def Obligations.PadBlockBuildsPaddedBlock : Prop :=
  ∀ (stg : Staging) (n rate : Nat) (pad : Bool), n < rate → rate ≤ 144 →
    let dsb : Byte := if pad then 0x06 else 0x01
    let both : Byte := if pad then 0x86 else 0x81
    (staged (padBlock stg n rate pad) rate =
      if n = rate - 1 then staged stg n ++ [both]
      else staged stg n ++ [dsb] ++ List.replicate (rate - n - 2) 0 ++ [0x80]) ∧
    ∀ k, rate ≤ k → nth (padBlock stg n rate pad) k 0 = nth stg k 0

/-- FINALIZE with a buffer on an Active context pads, absorbs one block, closes the context and writes exactly
DLEN bytes of the new state at DST (R105, R106 (a), (b), (h)); RATE, PAD, VALID and every other byte of memory
stay. -/
def Obligations.FinalizeActiveWritesDigest : Prop :=
  ∀ (s : State) (cap dst : Nat), s.inv = true → s.valid = true → s.fin = false →
    s.dlen ≤ cap → usable s dst s.dlen →
    ∃ t, exec (.finalize (.buffer cap dst)) s = .next t ∧
      t.a = absorbBlock s.rate.toNat
        (padMessage s.rate.toNat (domainByte s.pad) (staged s.stg s.bufLen.toNat)) s.a ∧
      memRead t.hm dst s.dlen = extract t.a s.dlen ∧ sameOutside dst s.dlen s t ∧
      t = { s with a := t.a, stg := t.stg, fin := true, bufLen := 0, hm := t.hm, status := some .ok }

/-- FINALIZE with a buffer on a Finalized context writes the DLEN bytes of the unchanged state and changes nothing
else (R105, R106 (d)). -/
def Obligations.FinalizeFinalizedRewritesDigest : Prop :=
  ∀ (s : State) (cap dst : Nat), s.inv = true → s.valid = true → s.fin = true →
    s.dlen ≤ cap → usable s dst s.dlen →
    ∃ t, exec (.finalize (.buffer cap dst)) s = .next t ∧
      memRead t.hm dst s.dlen = extract s.a s.dlen ∧ sameOutside dst s.dlen s t ∧
      t = { s with hm := t.hm, status := some .ok }

/-- FINALIZE without a buffer writes no memory; it closes an Active context and does nothing to a Finalized one
(R106 (c)). -/
def Obligations.FinalizeWithoutBufferWritesNoMemory : Prop :=
  ∀ s : State, s.contextOk = true → s.valid = true →
    (s.fin = false → ∃ t, exec (.finalize .noBuffer) s = .next t ∧
      t.a = absorbBlock s.rate.toNat
        (padMessage s.rate.toNat (domainByte s.pad) (staged s.stg s.bufLen.toNat)) s.a ∧
      t = { s with a := t.a, stg := t.stg, fin := true, bufLen := 0, status := some .ok }) ∧
    (s.fin = true → exec (.finalize .noBuffer) s = .next { s with status := some .ok })

/-- R114: a second FINALIZE on the same context returns the same digest, changes nothing of the context and no byte
outside its own DLEN bytes, and does not alter the bytes the first returned, unless it names other addresses that
overlap them. -/
def Obligations.FinalizeIsIdempotent : Prop :=
  ∀ (s t : State) (cap dst cap' dst' : Nat), s.inv = true →
    exec (.finalize (.buffer cap dst)) s = .next t → t.status = some .ok →
    s.dlen ≤ cap' → usable s dst' s.dlen →
    ∃ u, exec (.finalize (.buffer cap' dst')) t = .next u ∧
      memRead u.hm dst' s.dlen = memRead t.hm dst s.dlen ∧ sameOutside dst' s.dlen t u ∧
      u = { t with hm := u.hm } ∧
      ((dst' = dst ∨ dst' + s.dlen ≤ dst ∨ dst + s.dlen ≤ dst') →
        memRead u.hm dst s.dlen = memRead t.hm dst s.dlen)

/-! ### HASH and the digest as a function -/

/-- The padded message has length RATE * (L div RATE + 1), so the digest takes L div RATE + 1 permutations
(R111). -/
def Obligations.PaddedMessageFillsWholeBlocks : Prop :=
  ∀ (rate : Nat) (dsb : Byte) (m : List Byte), 0 < rate →
    (padMessage rate dsb m).length = rate * (m.length / rate + 1) ∧
      (wholeBlocks rate (padMessage rate dsb m)).length = m.length / rate + 1 ∧
      (wholeBlocks rate (padMessage rate dsb m)).flatten = padMessage rate dsb m

/-- INIT, any sequence of UPDATEs and FINALIZE with a large enough buffer write at DST the digest, as the function
of R111, of the concatenated inputs, and no other byte. -/
def Obligations.StreamedDigestIsSpongeFunction : Prop :=
  ∀ (s : State) (var : Selector) (p : VariantParams) (chunks : List (Nat × Nat)) (cap dst : Nat),
    s.memoryOk = true → varParams var = some p → (∀ c ∈ chunks, usable s c.1 c.2) →
    p.dlen ≤ cap → usable s dst p.dlen →
    ∃ t, execAll ([.init var] ++ updates chunks ++ [.finalize (.buffer cap dst)]) s = .next t ∧
      memRead t.hm dst p.dlen = digestOf p (gather s.hm chunks) ∧ sameOutside dst p.dlen s t ∧
      t.condition = .finalized ∧ t.status = some .ok

/-- HASH writes at DST the digest, as the function of R111, of the bytes the source range held before the command,
overlap or not (R50), and no other byte; the core ends Finalized with the digest in its low bytes (R108). -/
def Obligations.HashWritesDigestOfSource : Prop :=
  ∀ (s : State) (var : Selector) (p : VariantParams) (src len dst : Nat),
    s.memoryOk = true → varParams var = some p → usable s src len → usable s dst p.dlen →
    ∃ t, exec (.hash var src len dst) s = .next t ∧
      memRead t.hm dst p.dlen = digestOf p (memRead s.hm src len) ∧ sameOutside dst p.dlen s t ∧
      extract t.a p.dlen = digestOf p (memRead s.hm src len) ∧
      t = { s with
        a := t.a, stg := t.stg, bufLen := 0, rate := BitVec.ofNat 8 p.rate, fin := true, pad := p.pad,
        valid := true, hm := t.hm, status := some .ok }

/-- HASH is INIT, UPDATE, FINALIZE with CAP = DLEN, in that order, wherever its own checks pass (R108). -/
def Obligations.HashComposesInitUpdateFinalize : Prop :=
  ∀ (s : State) (var : Selector) (p : VariantParams) (src len dst : Nat),
    varParams var = some p → usable s src len → usable s dst p.dlen →
    ∃ t, exec (.hash var src len dst) s = .next t ∧
      execAll [.init var, .update src len, .finalize (.buffer p.dlen dst)] s = .next t

/-- R113: two HASHes of the same bytes under the same variant write identical bytes, whatever context, other memory
and addresses the two states have. -/
def Obligations.HashDependsOnMessageOnly : Prop :=
  ∀ (s s' : State) (var : Selector) (p : VariantParams) (src src' len dst dst' : Nat),
    s.memoryOk = true → s'.memoryOk = true → varParams var = some p →
    usable s src len → usable s dst p.dlen → usable s' src' len → usable s' dst' p.dlen →
    memRead s.hm src len = memRead s'.hm src' len →
    ∃ t t', exec (.hash var src len dst) s = .next t ∧ exec (.hash var src' len dst') s' = .next t' ∧
      memRead t.hm dst p.dlen = memRead t'.hm dst' p.dlen ∧ t.context = t'.context

/-! ### Errors (60_exceptions.md) -/

/-- R119: the six status codes; 6 to 15 are never returned. -/
def Obligations.StatusCodes : Prop :=
  (∀ row ∈ ([(.ok, 0), (.configurationError, 1), (.bufferTooSmallError, 2), (.illegalCommandError, 3),
      (.addressRangeError, 4), (.noContextError, 5)] : List (Status × BitVec 4)), row.1.code = row.2) ∧
  ∀ st : Status, st.code.toNat ≤ 5

/-- R124: a command that ends with an error leaves the core's state and host memory exactly as they were. -/
def Obligations.FailedCommandChangesNothing : Prop :=
  ∀ (i : Instr) (s t : State), exec i s = .next t → t.status ≠ some .ok → t = { s with status := t.status }

/-- R129: which command can return which status, each "yes" reached and each "no" never. -/
def Obligations.StatusesOfEachCommand : Prop :=
  ∀ st : Status,
    ((∃ s t var, exec (.init var) s = .next t ∧ t.status = some st) ↔ st ∈ [.ok, .configurationError]) ∧
    ((∃ s t src len, exec (.update src len) s = .next t ∧ t.status = some st) ↔
      st ∈ [.ok, .addressRangeError, .noContextError]) ∧
    ((∃ s t out, exec (.finalize out) s = .next t ∧ t.status = some st) ↔
      st ∈ [.ok, .bufferTooSmallError, .addressRangeError, .noContextError]) ∧
    ((∃ s t var src len dst, exec (.hash var src len dst) s = .next t ∧ t.status = some st) ↔
      st ∈ [.ok, .configurationError, .addressRangeError]) ∧
    ((∃ s t d why, decode d = .illegal why ∧ runDesc d s = .next t ∧ t.status = some st) ↔
      st = .illegalCommandError)

/-- R128: the status reported is that of the first check that fails, in the order of the table. -/
def Obligations.ChecksComeInOrder : Prop :=
  ∀ s t : State,
    (∀ d why, decode d = .illegal why → runDesc d s = .next t → t.status = some .illegalCommandError) ∧
    (∀ var, exec (.init var) s = .next t →
      t.status = some (if 7 < var.toNat then .configurationError else .ok)) ∧
    (∀ src len, exec (.update src len) s = .next t →
      t.status = some (if s.valid = false then .noContextError else if s.fin = true then .ok
        else if 2 ^ 32 < src + len then .addressRangeError else .ok)) ∧
    (exec (.finalize .noBuffer) s = .next t →
      t.status = some (if s.valid = false then .noContextError else .ok)) ∧
    (∀ cap dst, exec (.finalize (.buffer cap dst)) s = .next t →
      t.status = some (if s.valid = false then .noContextError else if cap < s.dlen then .bufferTooSmallError
        else if 2 ^ 32 < dst + s.dlen then .addressRangeError else .ok)) ∧
    (∀ var src len dst, exec (.hash var src len dst) s = .next t →
      t.status = some (if 7 < var.toNat then .configurationError
        else if 2 ^ 32 < src + len ∨ 2 ^ 32 < dst + [28, 32, 48, 64].getD (var.toNat % 4) 0
        then .addressRangeError else .ok))

/-- R120: INIT and HASH with a selector of 8 to 15 end with ConfigurationError and change nothing; no other command
ends so. -/
def Obligations.InvalidSelectorIsConfigurationError : Prop :=
  (∀ (s : State) (var : Selector) (src len dst : Nat), 7 < var.toNat →
    exec (.init var) s = .next { s with status := some .configurationError } ∧
    exec (.hash var src len dst) s = .next { s with status := some .configurationError }) ∧
  (∀ (i : Instr) (s t : State), exec i s = .next t → t.status = some .configurationError →
    ∃ var : Selector, 7 < var.toNat ∧ (i = .init var ∨ ∃ src len dst, i = .hash var src len dst))

/-- R122: where AddressRangeError is raised: UPDATE on an Active context, FINALIZE with a buffer and HASH, when a
named range passes 2^32; nothing is changed. -/
def Obligations.RangePastTopIsAddressRangeError : Prop :=
  ∀ s : State,
    (∀ src len, s.valid = true → s.fin = false → 2 ^ 32 < src + len →
      exec (.update src len) s = .next { s with status := some .addressRangeError }) ∧
    (∀ cap dst, s.valid = true → s.dlen ≤ cap → 2 ^ 32 < dst + s.dlen →
      exec (.finalize (.buffer cap dst)) s = .next { s with status := some .addressRangeError }) ∧
    (∀ var p src len dst, varParams var = some p → 2 ^ 32 < src + len ∨ 2 ^ 32 < dst + p.dlen →
      exec (.hash var src len dst) s = .next { s with status := some .addressRangeError }) ∧
    (∀ i t, exec i s = .next t → t.status = some .addressRangeError →
      (∃ src len, i = .update src len ∧ s.valid = true ∧ s.fin = false ∧ 2 ^ 32 < src + len) ∨
      (∃ cap dst, i = .finalize (.buffer cap dst) ∧ s.valid = true ∧ s.dlen ≤ cap ∧ 2 ^ 32 < dst + s.dlen) ∨
      (∃ var p src len dst, i = .hash var src len dst ∧ varParams var = some p ∧
        (2 ^ 32 < src + len ∨ 2 ^ 32 < dst + p.dlen)))

/-- R123: while VALID = 0, UPDATE and FINALIZE in every form end with NoContextError and change nothing; INIT and
HASH never do. -/
def Obligations.NoContextMeansNoContextError : Prop :=
  ∀ s : State,
    (s.valid = false → (∀ src len,
        exec (.update src len) s = .next { s with status := some .noContextError }) ∧
      ∀ out, exec (.finalize out) s = .next { s with status := some .noContextError }) ∧
    (∀ i t, exec i s = .next t → t.status = some .noContextError →
      s.valid = false ∧ ((∃ src len, i = .update src len) ∨ ∃ out, i = .finalize out))

/-- R125: FINALIZE with CAP < DLEN ends with BufferTooSmallError, Active and Finalized alike, and changes nothing;
nothing else ends so. -/
def Obligations.SmallBufferIsBufferTooSmallError : Prop :=
  ∀ s : State,
    (∀ cap dst, s.valid = true → cap < (200 - s.rate.toNat) / 2 →
      exec (.finalize (.buffer cap dst)) s = .next { s with status := some .bufferTooSmallError }) ∧
    (∀ i t, exec i s = .next t → t.status = some .bufferTooSmallError →
      ∃ cap dst, i = .finalize (.buffer cap dst) ∧ s.valid = true ∧ cap < (200 - s.rate.toNat) / 2)

/-- Every command ends with a status where all of the address space is backed, and so does every step (R135,
R150): nothing hangs, nothing is stuck, no fault exists. -/
def Obligations.EveryCommandEnds : Prop :=
  ∀ s : State, (∀ a : Nat, a < 2 ^ 32 → admits s.hmAdmit a = true) →
    (∀ i, ∃ t, exec i s = .next t ∧ t.status ≠ none) ∧ ∃ t, step s = .next t

/-- A command is refused exactly when its checks pass and a range it would touch holds an address outside HM_ADMIT
(R43, R135; log 3, log 15). -/
def Obligations.RefusedExactlyForUnbackedRange : Prop :=
  ∀ s : State,
    (∀ r var, exec (.init var) s ≠ .refused r) ∧
    (∀ r, exec (.finalize .noBuffer) s ≠ .refused r) ∧
    (∀ r src len, exec (.update src len) s = .refused r ↔
      r = .unbackedAddress ∧ s.condition = .active ∧ src + len ≤ 2 ^ 32 ∧
        ∃ k, k < len ∧ admits s.hmAdmit (src + k) = false) ∧
    (∀ r cap dst, exec (.finalize (.buffer cap dst)) s = .refused r ↔
      r = .unbackedAddress ∧ s.condition ≠ .empty ∧ s.dlen ≤ cap ∧ dst + s.dlen ≤ 2 ^ 32 ∧
        ∃ k, k < s.dlen ∧ admits s.hmAdmit (dst + k) = false) ∧
    (∀ r var src len dst, exec (.hash var src len dst) s = .refused r ↔
      r = .unbackedAddress ∧ ∃ p, varParams var = some p ∧ src + len ≤ 2 ^ 32 ∧ dst + p.dlen ≤ 2 ^ 32 ∧
        ((∃ k, k < len ∧ admits s.hmAdmit (src + k) = false) ∨
          ∃ k, k < p.dlen ∧ admits s.hmAdmit (dst + k) = false))

/-! ### Whole-machine rules -/

/-- R110: the conditions of the core and every transition. -/
def Obligations.TransitionTable : Prop :=
  ∀ (i : Instr) (s t : State), exec i s = .next t →
    (t.status ≠ some .ok → t.condition = s.condition) ∧
    (t.status = some .ok → match i with
      | .init _ => t.condition = .active
      | .hash _ _ _ _ => t.condition = .finalized
      | .update _ _ => s.condition ≠ .empty ∧ t.condition = s.condition
      | .finalize _ => s.condition ≠ .empty ∧ t.condition = .finalized) ∧
    (s.condition = .empty → match i with
      | .init _ => True
      | .hash _ _ _ _ => True
      | .update _ _ => t.status = some .noContextError
      | .finalize _ => t.status = some .noContextError)

/-- VALID is never cleared by a step, and only a successful INIT or HASH sets it (R30). -/
def Obligations.OnlyInitOrHashMakesAContext : Prop :=
  ∀ s t : State, step s = .next t →
    (s.valid = true → t.valid = true) ∧
    (s.valid = false → t.valid = true →
      ∃ d rest, s.port = .issue d :: rest ∧ t.status = some .ok ∧
        ((∃ var, decode d = .command (.init var)) ∨ ∃ var src len dst, decode d = .command (.hash var src len dst)))

/-- R25: RATE, and with it PAD (R29), never changes during a context's lifetime: a step that changes it runs an INIT
or a HASH, which starts a new context. -/
def Obligations.RateIsFixedForAContext : Prop :=
  ∀ s t : State, step s = .next t → t.rate ≠ s.rate ∨ t.pad ≠ s.pad →
    ∃ d rest, s.port = .issue d :: rest ∧ t.status = some .ok ∧
      ((∃ var, decode d = .command (.init var)) ∨ ∃ var src len dst, decode d = .command (.hash var src len dst))

/-- No command touches HM_ADMIT or the actions the host has still to take, and every command ends with a status
(R46, R97, R119; log 3, log 4, log 5). -/
def Obligations.CommandsKeepParameterAndPort : Prop :=
  ∀ (i : Instr) (s t : State), exec i s = .next t →
    t.hmAdmit = s.hmAdmit ∧ t.port = s.port ∧ ∃ st, t.status = some st

/-- Which bytes of host memory a command writes: none on an error, none for INIT, UPDATE and FINALIZE without a
buffer, at most [DST, DST + DLEN) for FINALIZE with a buffer and HASH (R45). -/
def Obligations.CommandsWriteOnlyTheDigestRange : Prop :=
  ∀ (i : Instr) (s t : State), s.memoryOk = true → exec i s = .next t →
    (t.status ≠ some .ok → t.hm = s.hm) ∧
    match i with
    | .init _ => t.hm = s.hm
    | .update _ _ => t.hm = s.hm
    | .finalize .noBuffer => t.hm = s.hm
    | .finalize (.buffer _ dst) => sameOutside dst s.dlen s t
    | .hash var _ _ dst => sameOutside dst ([28, 32, 48, 64].getD (var.toNat % 4) 0) s t

/-- Which bytes of host memory a command reads (R44, R45). With the source range's bytes the same, UPDATE and HASH
do the same to the core whatever else memory holds. No byte at all is read by INIT, by FINALIZE, by an UPDATE that is
ignored (FIN = 1) or ends in an error (VALID = 0, a range past 2^32), or by a HASH that ends in an error (a selector
above 7, a range past 2^32): they do the same on any two memories. -/
def Obligations.CommandsReadOnlyTheSourceRange : Prop :=
  ∀ (s : State) (m : Memory),
    (∀ src len, memRead s.hm src len = memRead m src len →
      sameOutcome agreeButMemory (exec (.update src len) s) (exec (.update src len) { s with hm := m })) ∧
    (∀ var, sameOutcome agreeButMemory (exec (.init var) s) (exec (.init var) { s with hm := m })) ∧
    (∀ out, sameOutcome agreeButMemory (exec (.finalize out) s) (exec (.finalize out) { s with hm := m })) ∧
    (∀ var src len dst, memRead s.hm src len = memRead m src len →
      sameOutcome agreeButMemory (exec (.hash var src len dst) s) (exec (.hash var src len dst) { s with hm := m })) ∧
    (∀ src len, s.fin = true ∨ s.valid = false ∨ 2 ^ 32 < src + len →
      sameOutcome agreeButMemory (exec (.update src len) s) (exec (.update src len) { s with hm := m })) ∧
    (∀ var src len dst,
      7 < var.toNat ∨ 2 ^ 32 < src + len ∨
        2 ^ 32 < dst + [28, 32, 48, 64].getD (var.toNat % 4) 0 →
      sameOutcome agreeButMemory (exec (.hash var src len dst) s) (exec (.hash var src len dst) { s with hm := m }))

/-- STG[BUFLEN .. 143] carries no meaning between commands (R21): two states that agree on their contexts, on host
memory and on the ports do the same, whatever stale bytes their staging buffers hold. -/
def Obligations.StaleStagingBytesAreHidden : Prop :=
  ∀ s s' : State, s.contextOk = true →
    s.context = s'.context → s.hm = s'.hm → s.hmAdmit = s'.hmAdmit → s.port = s'.port →
    sameOutcome
      (fun t t' => t.context = t'.context ∧ t.hm = t'.hm ∧ t.hmAdmit = t'.hmAdmit ∧ t.port = t'.port ∧
        t.status = t'.status) (step s) (step s')

/-! ### Host memory (20_memory.md) -/

/-- R40: MemWrite sets HM[addr+k] to v[k] for every k and changes no other byte; it keeps the canonical form. -/
def Obligations.MemWriteSetsItsRangeOnly : Prop :=
  ∀ (m : Memory) (addr : Nat) (v : List Byte), m.wf = true → addr + v.length ≤ 2 ^ 32 →
    (∀ k (h : k < v.length), readByte (memWrite m addr v) (addr + k) = v[k]) ∧
    (∀ a, (a < addr ∨ addr + v.length ≤ a) → readByte (memWrite m addr v) a = readByte m a) ∧
    (memWrite m addr v).wf = true

/-- Memories that read alike are equal data: the form is canonical (the model's representation of R38, log 2). -/
def Obligations.CanonicalMemoryIsUnique : Prop :=
  ∀ m m' : Memory, m.wf = true → m'.wf = true → (∀ a, readByte m a = readByte m' a) → m = m'

/-! ### The Byte-Order Adapter (41_byte_order_adapter.md) -/

/-- R88: BytesFromLane is the inverse of LaneFromBytes, in both directions, byte k being (L >> 8k) AND 0xFF. -/
def Obligations.LaneBytesAreInverse : Prop :=
  (∀ L : Lane, laneFromBytes (bytesFromLane L) = L) ∧
  (∀ b : Vector Byte 8, bytesFromLane (laneFromBytes b) = b) ∧
  ∀ (L : Lane) (k : Nat), k < 8 → (nth (bytesFromLane L) k 0).toNat = (L.toNat >>> (8 * k)) &&& 0xFF

/-- R89: in the byte view XorBlock is SB[j] <- SB[j] XOR blk[j] for 0 <= j < RATE, byte j mod 8 of lane j div 8, and
no lane at or past RATE div 8 changes. -/
def Obligations.XorBlockInByteView : Prop :=
  ∀ (rate : Nat) (blk : List Byte) (A : Lanes), legalRate rate = true → blk.length = rate →
    (∀ j, j < 200 → stateByte (xorBlock rate blk A) j =
      if j < rate then stateByte A j ^^^ blk.getD j 0 else stateByte A j) ∧
    (∀ i, i < 25 → rate / 8 ≤ i → lane (xorBlock rate blk A) i = lane A i)

/-! ### The Permutation Engine (40_permutation_engine.md) -/

/-- R73: ROTL64 as a function of natural numbers; bit i of v becomes bit (i + n) mod 64, and the number of 1 bits is
unchanged. -/
def Obligations.RotationMovesBits : Prop :=
  ∀ (v : Lane) (n : Nat), n < 64 →
    (rotl64 v n).toNat = (if n = 0 then v.toNat
      else ((v.toNat <<< n) ||| (v.toNat >>> (64 - n))) &&& 0xFFFFFFFFFFFFFFFF) ∧
    (∀ i, i < 64 → (rotl64 v n).getLsbD ((i + n) % 64) = v.getLsbD i) ∧
    (Finset.univ.filter fun i : Fin 64 => (rotl64 v n).getLsbD i.val = true).card =
      (Finset.univ.filter fun i : Fin 64 => v.getLsbD i.val = true).card

/-- The five steps in matrix coordinates, x the column and y the row: theta, rho (on the rotation walk's own
formula), pi, chi and iota (R16, R34, R76, R79, R80, R81, R83). -/
def Obligations.StepsInMatrixCoordinates : Prop :=
  ∀ A : Lanes,
    let parity := fun x : Nat => laneAt A x 0 ^^^ laneAt A x 1 ^^^ laneAt A x 2 ^^^ laneAt A x 3 ^^^ laneAt A x 4
    ∀ x y : Nat, x < 5 → y < 5 →
      laneAt (theta A) x y = laneAt A x y ^^^ parity ((x + 4) % 5) ^^^ rotl64 (parity ((x + 1) % 5)) 1 ∧
      laneAt (rho A) x y = rotl64 (laneAt A x y) (nth rhoOffsets (x + 5 * y) 0) ∧
      laneAt (pi A) y ((2 * x + 3 * y) % 5) = laneAt A x y ∧
      laneAt (chi A) x y = laneAt A x y ^^^ (~~~ laneAt A ((x + 1) % 5) y &&& laneAt A ((x + 2) % 5) y) ∧
      ∀ r, laneAt (iota A r) x y =
        if x = 0 ∧ y = 0 then laneAt A x y ^^^ nth roundConstants r 0 else laneAt A x y

/-- The constant tables follow their defining formulas: RC the generator with feedback 0x171, seven bits a round at
positions 2^j - 1 (R33), RHO the walk (x, y) <- (y, 2x + 3y mod 5) from (1, 0) with ((t+1)(t+2)/2) mod 64 (R34), PI
the move of (x, y) to (y, 2x + 3y mod 5), with PISRC its inverse (R35). -/
def Obligations.TablesFollowTheirFormulas : Prop :=
  (∀ r < 24,
    let advance := fun R : Nat => if (R <<< 1).testBit 8 then (R <<< 1) ^^^ 0x171 else R <<< 1
    (nth roundConstants r 0).toNat =
      ((List.range 7).map fun j => (advance^[7 * r + j] 1 % 2) * 2 ^ (2 ^ j - 1)).sum) ∧
  nth rhoOffsets 0 0 = 0 ∧
  (∀ t < 24,
    let at' := (fun p : Nat × Nat => (p.2, (2 * p.1 + 3 * p.2) % 5))^[t] (1, 0)
    nth rhoOffsets (at'.1 + 5 * at'.2) 0 = (t + 1) * (t + 2) / 2 % 64) ∧
  (∀ x < 5, ∀ y < 5, nth piTarget (x + 5 * y) 0 = y + 5 * ((2 * x + 3 * y) % 5)) ∧
  (∀ i < 25, nth piSource (nth piTarget i 0) 0 = i)

/-- R86: each step, each round and the permutation is a bijection of the 1600-bit state, and the zero state is not a
fixed point. -/
def Obligations.PermutationIsBijective : Prop :=
  Function.Bijective theta ∧ Function.Bijective rho ∧ Function.Bijective pi ∧ Function.Bijective chi ∧
  (∀ r, Function.Bijective fun A => iota A r) ∧ (∀ r, Function.Bijective fun A => Sys2Proof.Machine.round A r) ∧
  Function.Bijective keccakF1600 ∧ keccakF1600 zeroLanes ≠ zeroLanes
end

