-- ==== Sys2Proof/Laws/Word.lean ====
section
/-! SUPPORT. Tables: what `nth` reads of a `tabulate`, and when two tables are equal. -/

namespace Sys2Proof

variable {α : Type} {n : Nat}

theorem nth_eq_getElem (v : Vector α n) (i : Nat) (d : α) (h : i < n) : nth v i d = v[i] := by
  simp [nth, List.getD, h]

theorem nth_of_le (v : Vector α n) (i : Nat) (d : α) (h : n ≤ i) : nth v i d = d := by
  simp [nth, List.getD, h]

theorem nth_tabulate (f : Fin n → α) (i : Nat) (d : α) (h : i < n) :
    nth (tabulate f) i d = f ⟨i, h⟩ := by
  simp [nth, tabulate, List.getD, h]

@[simp] theorem nth_tabulate_fin (f : Fin n → α) (i : Fin n) (d : α) : nth (tabulate f) i.val d = f i :=
  nth_tabulate f i.val d i.isLt

/-- A table is known by its entries. -/
theorem table_ext (v w : Vector α n) (d : α) (h : ∀ i : Fin n, nth v i.val d = nth w i.val d) : v = w := by
  ext i hi
  have := h ⟨i, hi⟩
  rwa [nth_eq_getElem _ _ _ hi, nth_eq_getElem _ _ _ hi] at this

/-- Listing a table's own entries gives it back. -/
@[simp] theorem tabulate_nth (v : Vector α n) (d : α) : (tabulate fun i : Fin n => nth v i.val d) = v :=
  table_ext _ _ d fun i => by simp

theorem getElem_tabulate (f : Fin n → α) (i : Nat) (h : i < n) : (tabulate f)[i] = f ⟨i, h⟩ := by
  rw [← nth_eq_getElem (tabulate f) i (f ⟨i, h⟩) h, nth_tabulate _ _ _ h]

/-- The first entries of a table, as a list. -/
theorem toList_take_eq_map (v : Vector α n) (d : α) (k : Nat) (h : k ≤ n) :
    v.toList.take k = (List.range k).map fun i => nth v i d := by
  apply List.ext_getElem
  · simp [h]
  · intro i h1 h2
    have hi : i < n := by simp at h1; omega
    simp [nth_eq_getElem _ _ _ hi]

end Sys2Proof
end

