-- ==== Sys2Proof/Laws/Engine.lean ====
section
/-! SUPPORT. The Permutation Engine, one lemma per function: which lane a step puts where, and which bit a
rotation moves where (40_permutation_engine.md R73 to R85). -/

namespace Sys2Proof.Machine

/-! ### Lanes -/

theorem lanes_ext (A B : Lanes) (h : ∀ i, i < 25 → lane A i = lane B i) : A = B :=
  table_ext A B 0 fun i => h i.val i.isLt

theorem lane_tabulate (f : Fin 25 → Lane) (i : Nat) (h : i < 25) : lane (tabulate f) i = f ⟨i, h⟩ :=
  nth_tabulate f i 0 h

@[simp] theorem lane_zeroLanes (i : Nat) : lane zeroLanes i = 0 := by
  by_cases h : i < 25
  · exact lane_tabulate _ i h
  · exact nth_of_le _ _ _ (by omega)

theorem lane_of_le (A : Lanes) (i : Nat) (h : 25 ≤ i) : lane A i = 0 := nth_of_le A i 0 h

/-! ### Rotation -/

/-- Bit `i` of a rotation, by the bit it comes from. -/
theorem getLsbD_rotl64 (v : Lane) (n i : Nat) (hn : n < 64) (hi : i < 64) :
    (rotl64 v n).getLsbD i = v.getLsbD ((i + (64 - n)) % 64) := by
  unfold rotl64
  by_cases h : i < n
  · have h1 : (i + (64 - n)) % 64 = 64 - n + i := by omega
    simp [h, h1]
  · have h1 : (i + (64 - n)) % 64 = i - n := by omega
    have h2 : v.getLsbD (64 - n + i) = false := BitVec.getLsbD_of_ge _ _ (by omega)
    rw [BitVec.getLsbD_or, BitVec.getLsbD_shiftLeft, BitVec.getLsbD_ushiftRight, h1, h2]
    simp [h, hi]

@[simp] theorem rotl64_zero_left (n : Nat) : rotl64 0 n = 0 := by simp [rotl64]

@[simp] theorem rotl64_zero (v : Lane) : rotl64 v 0 = v := by
  apply BitVec.eq_of_getLsbD_eq
  intro i hi
  rw [getLsbD_rotl64 v 0 i (by omega) hi]
  congr 1
  omega

theorem rotl64_xor (v w : Lane) (n : Nat) (hn : n < 64) : rotl64 (v ^^^ w) n = rotl64 v n ^^^ rotl64 w n := by
  apply BitVec.eq_of_getLsbD_eq
  intro i hi
  simp [getLsbD_rotl64 _ n i hn hi]

theorem rotl64_rotl64 (v : Lane) (n k : Nat) (hn : n < 64) (hk : k < 64) :
    rotl64 (rotl64 v n) k = rotl64 v ((n + k) % 64) := by
  apply BitVec.eq_of_getLsbD_eq
  intro i hi
  rw [getLsbD_rotl64 _ k i hk hi, getLsbD_rotl64 _ n _ hn (by omega),
    getLsbD_rotl64 _ _ i (by omega) hi]
  congr 1
  omega

/-- Rotating on by the rest of the lane undoes a rotation. -/
theorem rotl64_cancel (v : Lane) (n : Nat) (hn : n < 64) : rotl64 (rotl64 v n) ((64 - n) % 64) = v := by
  rw [rotl64_rotl64 v n _ hn (by omega)]
  have : (n + (64 - n) % 64) % 64 = 0 := by omega
  rw [this, rotl64_zero]

/-! ### The steps -/

theorem nth_columnParity (A : Lanes) (x : Nat) (h : x < 5) :
    nth (columnParity A) x 0 =
      lane A x ^^^ lane A (x + 5) ^^^ lane A (x + 10) ^^^ lane A (x + 15) ^^^ lane A (x + 20) :=
  nth_tabulate _ x 0 h

theorem nth_diffusion (C : Vector Lane 5) (x : Nat) (h : x < 5) :
    nth (diffusion C) x 0 = nth C ((x + 4) % 5) 0 ^^^ rotl64 (nth C ((x + 1) % 5) 0) 1 :=
  nth_tabulate _ x 0 h

theorem lane_theta (A : Lanes) (i : Nat) (h : i < 25) :
    lane (theta A) i = lane A i ^^^ nth (diffusion (columnParity A)) (i % 5) 0 :=
  lane_tabulate _ i h

theorem lane_rho (A : Lanes) (i : Nat) (h : i < 25) : lane (rho A) i = rotl64 (lane A i) (nth rhoOffsets i 0) :=
  lane_tabulate _ i h

theorem lane_pi (A : Lanes) (j : Nat) (h : j < 25) : lane (pi A) j = lane A (nth piSource j 0) :=
  lane_tabulate _ j h

theorem lane_chi (A : Lanes) (i : Nat) (h : i < 25) :
    lane (chi A) i = lane A i ^^^
      (~~~ laneAt A ((i % 5 + 1) % 5) (i / 5) &&& laneAt A ((i % 5 + 2) % 5) (i / 5)) :=
  lane_tabulate _ i h

theorem lane_iota (A : Lanes) (r i : Nat) (h : i < 25) :
    lane (iota A r) i = if i = 0 then lane A 0 ^^^ nth roundConstants r 0 else lane A i :=
  lane_tabulate _ i h

/-! ### The tables -/

/-- RC[r] by its place in R33's table. -/
theorem nth_roundConstants (r : Nat) (h : r < 24) :
    nth roundConstants r 0 =
      if r < 12 then (nth roundConstantRows (r % 12) (0, 0)).1 else (nth roundConstantRows (r % 12) (0, 0)).2 :=
  nth_tabulate _ r 0 h

theorem rhoOffset_lt (i : Nat) (h : i < 25) : nth rhoOffsets i 0 < 64 := by
  have : ∀ j : Fin 25, nth rhoOffsets j.val 0 < 64 := by decide
  exact this ⟨i, h⟩

theorem piTarget_lt (i : Nat) (h : i < 25) : nth piTarget i 0 < 25 := by
  have : ∀ j : Fin 25, nth piTarget j.val 0 < 25 := by decide
  exact this ⟨i, h⟩

theorem piSource_piTarget (i : Nat) (h : i < 25) : nth piSource (nth piTarget i 0) 0 = i := by
  have : ∀ j : Fin 25, nth piSource (nth piTarget j.val 0) 0 = j.val := by decide
  exact this ⟨i, h⟩

/-! ### Rounds -/

@[simp] theorem roundsFrom_zero (r : Nat) (A : Lanes) : roundsFrom 0 r A = A := rfl

theorem roundsFrom_succ (n r : Nat) (A : Lanes) :
    roundsFrom (n + 1) r A = roundsFrom n (r + 1) (round A r) := rfl

end Sys2Proof.Machine
end

