-- ==== Sys2Proof/Laws/Adapter.lean ====
section
/-! SUPPORT. The Byte-Order Adapter: the bits of a lane made of bytes, and what the XOR of a block leaves
(41_byte_order_adapter.md R87 to R92). -/

namespace Sys2Proof.Machine

theorem getLsbD_laneByte (L : Lane) (k b : Nat) (hb : b < 8) :
    (laneByte L k).getLsbD b = L.getLsbD (8 * k + b) := by
  simp [laneByte, hb]

theorem nth_bytesFromLane (L : Lane) (k : Nat) (h : k < 8) : nth (bytesFromLane L) k 0 = laneByte L k :=
  nth_tabulate _ k 0 h

theorem nth_eightBytes (blk : List Byte) (k j : Nat) (h : j < 8) :
    nth (eightBytes blk k) j 0 = blk.getD (k + j) 0 :=
  nth_tabulate _ j 0 h

/-- Byte `k` of a lane made of eight bytes is the k-th of them. -/
theorem laneByte_laneFromBytes (b : Vector Byte 8) (k : Nat) (h : k < 8) :
    laneByte (laneFromBytes b) k = nth b k 0 := by
  have hb : ∀ j, (nth b j 0).toNat < 256 := fun j => (nth b j 0).isLt
  have h0 := hb 0
  have h1 := hb 1
  have h2 := hb 2
  have h3 := hb 3
  have h4 := hb 4
  have h5 := hb 5
  have h6 := hb 6
  have h7 := hb 7
  apply BitVec.eq_of_toNat_eq
  simp only [laneByte, laneFromBytes, BitVec.toNat_setWidth, BitVec.toNat_ushiftRight, BitVec.toNat_ofNat,
    Nat.shiftRight_eq_div_pow]
  interval_cases k <;> omega

/-- A lane is known by its eight bytes. -/
theorem lane_ext_bytes (L M : Lane) (h : ∀ k, k < 8 → laneByte L k = laneByte M k) : L = M := by
  apply BitVec.eq_of_getLsbD_eq
  intro i hi
  have := congrArg (fun b : Byte => b.getLsbD (i % 8)) (h (i / 8) (by omega))
  simp only [getLsbD_laneByte _ _ _ (Nat.mod_lt i (by omega : 0 < 8))] at this
  rwa [Nat.div_add_mod] at this

theorem laneByte_xor (L M : Lane) (k : Nat) : laneByte (L ^^^ M) k = laneByte L k ^^^ laneByte M k := by
  apply BitVec.eq_of_getLsbD_eq
  intro b hb
  simp [getLsbD_laneByte _ _ _ hb]

theorem lane_xorBlock (rate : Nat) (blk : List Byte) (A : Lanes) (i : Nat) (h : i < 25) :
    lane (xorBlock rate blk A) i =
      if i < laneCount rate then lane A i ^^^ laneFromBytes (eightBytes blk (8 * i)) else lane A i :=
  lane_tabulate _ i h

/-- Absorption leaves the lanes past the rate alone (R90). -/
theorem lane_xorBlock_of_le (rate : Nat) (blk : List Byte) (A : Lanes) (i : Nat) (h : i < 25)
    (hi : laneCount rate ≤ i) : lane (xorBlock rate blk A) i = lane A i := by
  rw [lane_xorBlock _ _ _ _ h, if_neg (by omega)]

@[simp] theorem length_extract (A : Lanes) (n : Nat) : (extract A n).length = n := by simp [extract]

@[simp] theorem getElem_extract (A : Lanes) (n j : Nat) (h : j < (extract A n).length) :
    (extract A n)[j] = stateByte A j := by
  simp [extract]

end Sys2Proof.Machine
end

