-- ==== Sys2Proof/Laws/Memory.lean ====
section
/-! SUPPORT. Host memory: a read after a write, the canonical form, and what a byte range reads as
(20_memory.md R38 to R40, R43). -/

namespace Sys2Proof.Machine

/-! ### The canonical form -/

@[simp] theorem Memory.wfFrom_nil (lo : Nat) : Memory.wfFrom lo [] = true := rfl

theorem Memory.wfFrom_cons_iff (lo a : Nat) (b : Byte) (rest : Memory) :
    Memory.wfFrom lo ((a, b) :: rest) = true ↔
      lo ≤ a ∧ a < Config.addrTop ∧ b ≠ Config.unlistedByte ∧ Memory.wfFrom (a + 1) rest = true := by
  simp [Memory.wfFrom, Bool.and_eq_true, and_assoc]

theorem Memory.wfFrom_mono {lo lo' : Nat} {m : Memory} (h : Memory.wfFrom lo m = true) (hle : lo' ≤ lo) :
    Memory.wfFrom lo' m = true := by
  cases m with
  | nil => rfl
  | cons c rest =>
    obtain ⟨a, b⟩ := c
    rw [Memory.wfFrom_cons_iff] at h ⊢
    exact ⟨hle.trans h.1, h.2⟩

/-- Below its lowest entry a canonical memory reads as unlisted. -/
theorem readByte_of_lt {lo : Nat} {m : Memory} (h : Memory.wfFrom lo m = true) {k : Nat} (hk : k < lo) :
    readByte m k = Config.unlistedByte := by
  induction m generalizing lo with
  | nil => rfl
  | cons c rest ih =>
    obtain ⟨a, b⟩ := c
    rw [Memory.wfFrom_cons_iff] at h
    have hne : a ≠ k := by omega
    simp only [readByte, hne, if_false]
    exact ih h.2.2.2 (by omega)

/-- Past the address space every canonical memory reads as unlisted. -/
theorem readByte_of_addrTop_le {lo : Nat} {m : Memory} (h : Memory.wfFrom lo m = true) {k : Nat}
    (hk : Config.addrTop ≤ k) : readByte m k = Config.unlistedByte := by
  induction m generalizing lo with
  | nil => rfl
  | cons c rest ih =>
    obtain ⟨a, b⟩ := c
    rw [Memory.wfFrom_cons_iff] at h
    have hne : a ≠ k := by omega
    simp only [readByte, hne, if_false]
    exact ih h.2.2.2

theorem readByte_cons (addr : Nat) (b : Byte) (rest : Memory) (k : Nat)
    (h : Memory.wfFrom (addr + 1) rest = true) :
    readByte (Memory.cons addr b rest) k = if k = addr then b else readByte rest k := by
  unfold Memory.cons
  by_cases hb : b = Config.unlistedByte
  · by_cases hk : k = addr
    · simp [hb, hk, readByte_of_lt h (Nat.lt_succ_self addr)]
    · simp [hb, hk]
  · by_cases hk : k = addr
    · simp [hb, hk, readByte]
    · simp [hb, hk, readByte, Ne.symm hk]

theorem Memory.wfFrom_cons {lo addr : Nat} {b : Byte} {rest : Memory} (hlo : lo ≤ addr)
    (ha : addr < Config.addrTop) (h : Memory.wfFrom (addr + 1) rest = true) :
    Memory.wfFrom lo (Memory.cons addr b rest) = true := by
  unfold Memory.cons
  by_cases hb : b = Config.unlistedByte
  · simpa [hb] using Memory.wfFrom_mono h (by omega)
  · simp only [hb, if_false]
    exact (Memory.wfFrom_cons_iff _ _ _ _).2 ⟨hlo, ha, hb, h⟩

/-- What one byte write does to every read. -/
theorem readByte_writeByte {lo : Nat} {m : Memory} (h : Memory.wfFrom lo m = true) (addr : Nat) (b : Byte)
    (k : Nat) : readByte (writeByte m addr b) k = if k = addr then b else readByte m k := by
  induction m generalizing lo with
  | nil => exact readByte_cons addr b [] k rfl
  | cons c rest ih =>
    obtain ⟨a, x⟩ := c
    rw [Memory.wfFrom_cons_iff] at h
    unfold writeByte
    rcases Nat.lt_trichotomy a addr with h1 | rfl | h1
    · rw [if_pos h1]
      by_cases hk : a = k
      · subst hk
        rw [if_neg (by omega)]
        simp [readByte]
      · simp [readByte, hk, ih h.2.2.2]
    · rw [if_neg (Nat.lt_irrefl _), if_pos rfl, readByte_cons _ _ _ _ h.2.2.2]
      by_cases hk : k = a
      · simp [hk]
      · simp [readByte, hk, Ne.symm hk]
    · rw [if_neg (by omega), if_neg (by omega)]
      refine readByte_cons addr b ((a, x) :: rest) k ?_
      exact (Memory.wfFrom_cons_iff _ _ _ _).2 ⟨by omega, h.2⟩

/-- A byte write keeps the canonical form. -/
theorem Memory.wfFrom_writeByte {lo : Nat} {m : Memory} (h : Memory.wfFrom lo m = true) {addr : Nat}
    (hlo : lo ≤ addr) (ha : addr < Config.addrTop) (b : Byte) :
    Memory.wfFrom lo (writeByte m addr b) = true := by
  induction m generalizing lo with
  | nil => exact Memory.wfFrom_cons hlo ha rfl
  | cons c rest ih =>
    obtain ⟨a, x⟩ := c
    rw [Memory.wfFrom_cons_iff] at h
    unfold writeByte
    split_ifs with h1 h2
    · exact (Memory.wfFrom_cons_iff _ _ _ _).2 ⟨h.1, h.2.1, h.2.2.1, ih h.2.2.2 h1⟩
    · subst h2
      exact Memory.wfFrom_cons hlo ha h.2.2.2
    · exact Memory.wfFrom_cons hlo ha ((Memory.wfFrom_cons_iff _ _ _ _).2 ⟨by omega, h.2⟩)

theorem Memory.wf_writeByte {m : Memory} (h : m.wf = true) {addr : Nat} (ha : addr < Config.addrTop)
    (b : Byte) : (writeByte m addr b).wf = true :=
  Memory.wfFrom_writeByte h (Nat.zero_le _) ha b

/-- A write of a byte sequence within the address space keeps the canonical form. -/
theorem Memory.wf_memWrite {m : Memory} (h : m.wf = true) (addr : Nat) (v : List Byte)
    (ha : addr + v.length ≤ Config.addrTop) : (memWrite m addr v).wf = true := by
  induction v generalizing m addr with
  | nil => exact h
  | cons b v ih =>
    simp only [List.length_cons] at ha
    exact ih (Memory.wf_writeByte h (by omega) b) (addr + 1) (by omega)

/-- What a write of a byte sequence does to every read. -/
theorem readByte_memWrite {m : Memory} (h : m.wf = true) (addr : Nat) (v : List Byte)
    (ha : addr + v.length ≤ Config.addrTop) (k : Nat) :
    readByte (memWrite m addr v) k =
      if addr ≤ k ∧ k < addr + v.length then v.getD (k - addr) 0 else readByte m k := by
  induction v generalizing m addr with
  | nil =>
    simp only [memWrite, List.length_nil]
    rw [if_neg (by omega)]
  | cons b v ih =>
    simp only [List.length_cons] at ha
    rw [memWrite, ih (Memory.wf_writeByte h (by omega) b) (addr + 1) (by omega),
      readByte_writeByte h]
    simp only [List.length_cons]
    by_cases hk : k = addr
    · subst hk
      rw [if_neg (by omega), if_pos rfl, if_pos (by omega)]
      simp
    · by_cases hin : addr + 1 ≤ k ∧ k < addr + 1 + v.length
      · have h2 : addr ≤ k ∧ k < addr + (v.length + 1) := by omega
        have h3 : k - addr = (k - (addr + 1)) + 1 := by omega
        rw [if_pos hin, if_pos h2, h3, List.getD_cons_succ]
      · have h2 : ¬ (addr ≤ k ∧ k < addr + (v.length + 1)) := by omega
        rw [if_neg hin, if_neg h2, if_neg hk]

/-! ### Byte ranges -/

@[simp] theorem length_memRead (m : Memory) (addr n : Nat) : (memRead m addr n).length = n := by
  simp [memRead]

@[simp] theorem memRead_zero (m : Memory) (addr : Nat) : memRead m addr 0 = [] := rfl

@[simp] theorem getElem_memRead (m : Memory) (addr n k : Nat) (h : k < (memRead m addr n).length) :
    (memRead m addr n)[k] = readByte m (addr + k) := by
  simp [memRead]

theorem getD_memRead (m : Memory) (addr n k : Nat) (h : k < n) :
    (memRead m addr n).getD k 0 = readByte m (addr + k) := by
  simp [memRead, List.getD, h]

/-- A range read is its first part, then its second part. -/
theorem memRead_append (m : Memory) (addr n k : Nat) :
    memRead m addr (n + k) = memRead m addr n ++ memRead m (addr + n) k := by
  simp [memRead, List.range_add, Nat.add_assoc]

/-- A part of a range read is a range read. -/
theorem take_drop_memRead (m : Memory) (addr n d k : Nat) (h : d + k ≤ n) :
    ((memRead m addr n).drop d).take k = memRead m (addr + d) k := by
  apply List.ext_getElem
  · simp
    omega
  · intro i h1 h2
    simp [Nat.add_assoc]

theorem drop_memRead (m : Memory) (addr n d : Nat) (h : d ≤ n) :
    (memRead m addr n).drop d = memRead m (addr + d) (n - d) := by
  obtain ⟨r, rfl⟩ := Nat.exists_eq_add_of_le h
  simp [memRead_append]

theorem memRead_congr {m m' : Memory} {addr n : Nat}
    (h : ∀ k, k < n → readByte m (addr + k) = readByte m' (addr + k)) :
    memRead m addr n = memRead m' addr n := by
  apply List.ext_getElem
  · simp
  · intro k h1 h2
    simpa using h k (by simpa using h1)

theorem memRead_eq_iff {m m' : Memory} {addr n : Nat} :
    memRead m addr n = memRead m' addr n ↔ ∀ k, k < n → readByte m (addr + k) = readByte m' (addr + k) := by
  refine ⟨fun h k hk => ?_, memRead_congr⟩
  rw [← getD_memRead m addr n k hk, h, getD_memRead m' addr n k hk]

/-- Reading back what was written. -/
theorem memRead_memWrite {m : Memory} (h : m.wf = true) (addr : Nat) (v : List Byte)
    (ha : addr + v.length ≤ Config.addrTop) : memRead (memWrite m addr v) addr v.length = v := by
  apply List.ext_getElem
  · simp
  · intro k h1 h2
    have hk : k < v.length := h2
    rw [getElem_memRead, readByte_memWrite h addr v ha, if_pos (by omega)]
    simp [hk]

/-! ### HM_ADMIT -/

theorem backed_iff (regions : List Region) (addr n : Nat) :
    backed regions addr n = true ↔ ∀ k, k < n → admits regions (addr + k) = true := by
  simp [backed, List.all_eq_true]

@[simp] theorem backed_zero (regions : List Region) (addr : Nat) : backed regions addr 0 = true := rfl

theorem admits_lt {regions : List Region} {addr : Nat} (h : admits regions addr = true) :
    addr < Config.addrTop := by
  simp [admits] at h
  exact h.1

/-- Every cell of a canonical memory after a byte write was there before or is at the written address. -/
theorem mem_writeByte {m : Memory} {addr : Nat} {b : Byte} {c : Host.Cell} (h : c ∈ writeByte m addr b) :
    c ∈ m ∨ c.1 = addr := by
  have hcons : ∀ rest : Memory, c ∈ Memory.cons addr b rest → c ∈ rest ∨ c.1 = addr := by
    intro rest hc
    unfold Memory.cons at hc
    split at hc
    · exact .inl hc
    · rcases List.mem_cons.1 hc with rfl | hc
      · exact .inr rfl
      · exact .inl hc
  induction m with
  | nil => exact hcons [] h
  | cons d rest ih =>
    obtain ⟨a, x⟩ := d
    unfold writeByte at h
    split_ifs at h with h1 h2
    · rcases List.mem_cons.1 h with rfl | h
      · exact .inl (List.mem_cons_self ..)
      · exact (ih h).imp (List.mem_cons_of_mem _) id
    · exact (hcons rest h).imp (List.mem_cons_of_mem _) id
    · exact hcons _ h

theorem mem_memWrite {m : Memory} {addr : Nat} {v : List Byte} {c : Host.Cell} (h : c ∈ memWrite m addr v) :
    c ∈ m ∨ (addr ≤ c.1 ∧ c.1 < addr + v.length) := by
  induction v generalizing m addr with
  | nil => exact .inl h
  | cons b v ih =>
    simp only [List.length_cons]
    rcases ih h with h | ⟨h1, h2⟩
    · rcases mem_writeByte h with h | h
      · exact .inl h
      · exact .inr (by omega)
    · exact .inr (by omega)

end Sys2Proof.Machine
end

