-- ==== Sys2Proof/Laws/State.lean ====
section
/-! SUPPORT. State: one lemma per field per update, so that no proof unfolds a record update. -/

namespace Sys2Proof.Machine

/-! ### How a command ends -/

theorem raise_eq (e : Status) (s : State) : raise e s = .next { s with status := some e } := rfl

theorem complete_eq (s : State) : complete s = .next { s with status := some .ok } := rfl

@[simp] theorem raise_next_iff (e : Status) (s t : State) :
    raise e s = .next t ↔ t = { s with status := some e } := by
  rw [raise_eq, Host.Outcome.next.injEq, eq_comm]

@[simp] theorem complete_next_iff (s t : State) : complete s = .next t ↔ t = { s with status := some .ok } := by
  rw [complete_eq, Host.Outcome.next.injEq, eq_comm]

/-! ### INIT's effect -/

section
variable (p : VariantParams) (s : State)

@[simp] theorem initContext_a : (initContext p s).a = zeroLanes := rfl
@[simp] theorem initContext_stg : (initContext p s).stg = tabulate fun _ => 0 := rfl
@[simp] theorem initContext_bufLen : (initContext p s).bufLen = 0 := rfl
@[simp] theorem initContext_rate : (initContext p s).rate = BitVec.ofNat 8 p.rate := rfl
@[simp] theorem initContext_fin : (initContext p s).fin = false := rfl
@[simp] theorem initContext_pad : (initContext p s).pad = p.pad := rfl
@[simp] theorem initContext_valid : (initContext p s).valid = true := rfl
@[simp] theorem initContext_hm : (initContext p s).hm = s.hm := rfl
@[simp] theorem initContext_hmAdmit : (initContext p s).hmAdmit = s.hmAdmit := rfl
@[simp] theorem initContext_port : (initContext p s).port = s.port := rfl
@[simp] theorem initContext_status : (initContext p s).status = s.status := rfl

end

/-! ### The whole blocks of UPDATE -/

section
variable (src len : Nat) (s : State)

@[simp] theorem absorbInput_a :
    (absorbInput src len s).a = absorbFrom s.hm s.rate.toNat (len / s.rate.toNat) src s.a := rfl
@[simp] theorem absorbInput_rate :
    (absorbInput src len s).rate = s.rate := rfl
@[simp] theorem absorbInput_fin :
    (absorbInput src len s).fin = s.fin := rfl
@[simp] theorem absorbInput_pad :
    (absorbInput src len s).pad = s.pad := rfl
@[simp] theorem absorbInput_valid :
    (absorbInput src len s).valid = s.valid := rfl
@[simp] theorem absorbInput_hm :
    (absorbInput src len s).hm = s.hm := rfl
@[simp] theorem absorbInput_hmAdmit :
    (absorbInput src len s).hmAdmit = s.hmAdmit := rfl
@[simp] theorem absorbInput_port :
    (absorbInput src len s).port = s.port := rfl
@[simp] theorem absorbInput_status :
    (absorbInput src len s).status = s.status := rfl

theorem absorbInput_bufLen :
    (absorbInput src len s).bufLen = BitVec.ofNat 8 (len - len / s.rate.toNat * s.rate.toNat) := rfl

theorem absorbInput_stg :
    (absorbInput src len s).stg =
      stgWrite s.stg 0 (memRead s.hm (src + len / s.rate.toNat * s.rate.toNat)
        (len - len / s.rate.toNat * s.rate.toNat)) := rfl

/-! ### UPDATE's effect leaves RATE, PAD, FIN, VALID, memory and the ports alone -/

@[simp] theorem updateContext_rate : (updateContext src len s).rate = s.rate := by
  unfold updateContext
  dsimp only
  split_ifs <;> rfl

@[simp] theorem updateContext_fin : (updateContext src len s).fin = s.fin := by
  unfold updateContext
  dsimp only
  split_ifs <;> rfl

@[simp] theorem updateContext_pad : (updateContext src len s).pad = s.pad := by
  unfold updateContext
  dsimp only
  split_ifs <;> rfl

@[simp] theorem updateContext_valid : (updateContext src len s).valid = s.valid := by
  unfold updateContext
  dsimp only
  split_ifs <;> rfl

@[simp] theorem updateContext_hm : (updateContext src len s).hm = s.hm := by
  unfold updateContext
  dsimp only
  split_ifs <;> rfl

@[simp] theorem updateContext_hmAdmit : (updateContext src len s).hmAdmit = s.hmAdmit := by
  unfold updateContext
  dsimp only
  split_ifs <;> rfl

@[simp] theorem updateContext_port : (updateContext src len s).port = s.port := by
  unfold updateContext
  dsimp only
  split_ifs <;> rfl

@[simp] theorem updateContext_status : (updateContext src len s).status = s.status := by
  unfold updateContext
  dsimp only
  split_ifs <;> rfl

end

/-! ### FINALIZE's effect leaves RATE, PAD, VALID, memory and the ports alone -/

@[simp] theorem finalizeContext_rate (s : State) : (finalizeContext s).rate = s.rate := by
  unfold finalizeContext
  split_ifs <;> rfl

@[simp] theorem finalizeContext_pad (s : State) : (finalizeContext s).pad = s.pad := by
  unfold finalizeContext
  split_ifs <;> rfl

@[simp] theorem finalizeContext_valid (s : State) : (finalizeContext s).valid = s.valid := by
  unfold finalizeContext
  split_ifs <;> rfl

@[simp] theorem finalizeContext_hm (s : State) : (finalizeContext s).hm = s.hm := by
  unfold finalizeContext
  split_ifs <;> rfl

@[simp] theorem finalizeContext_hmAdmit (s : State) : (finalizeContext s).hmAdmit = s.hmAdmit := by
  unfold finalizeContext
  split_ifs <;> rfl

@[simp] theorem finalizeContext_port (s : State) : (finalizeContext s).port = s.port := by
  unfold finalizeContext
  split_ifs <;> rfl

@[simp] theorem finalizeContext_status (s : State) : (finalizeContext s).status = s.status := by
  unfold finalizeContext
  split_ifs <;> rfl

@[simp] theorem finalizeContext_fin (s : State) : (finalizeContext s).fin = true := by
  unfold finalizeContext
  split_ifs with h
  · exact h
  · rfl

@[simp] theorem finalizeContext_dlen (s : State) : (finalizeContext s).dlen = s.dlen := by
  simp [State.dlen]

theorem finalizeContext_of_fin (s : State) (h : s.fin = true) : finalizeContext s = s := by
  simp [finalizeContext, h]

/-! ### The digest write changes host memory only -/

section
variable (dst : Nat) (s : State)

@[simp] theorem writeDigest_a : (writeDigest dst s).a = s.a := rfl
@[simp] theorem writeDigest_stg : (writeDigest dst s).stg = s.stg := rfl
@[simp] theorem writeDigest_bufLen : (writeDigest dst s).bufLen = s.bufLen := rfl
@[simp] theorem writeDigest_rate : (writeDigest dst s).rate = s.rate := rfl
@[simp] theorem writeDigest_fin : (writeDigest dst s).fin = s.fin := rfl
@[simp] theorem writeDigest_pad : (writeDigest dst s).pad = s.pad := rfl
@[simp] theorem writeDigest_valid : (writeDigest dst s).valid = s.valid := rfl
@[simp] theorem writeDigest_hm : (writeDigest dst s).hm = memWrite s.hm dst (extract s.a s.dlen) := rfl
@[simp] theorem writeDigest_hmAdmit : (writeDigest dst s).hmAdmit = s.hmAdmit := rfl
@[simp] theorem writeDigest_port : (writeDigest dst s).port = s.port := rfl
@[simp] theorem writeDigest_status : (writeDigest dst s).status = s.status := rfl

end

/-! ### Presenting an instruction -/

section
variable (s : State) (nbits w : Nat)

@[simp] theorem withFetchWord_a : (s.withFetchWord nbits w).a = s.a := rfl
@[simp] theorem withFetchWord_stg : (s.withFetchWord nbits w).stg = s.stg := rfl
@[simp] theorem withFetchWord_bufLen : (s.withFetchWord nbits w).bufLen = s.bufLen := rfl
@[simp] theorem withFetchWord_rate : (s.withFetchWord nbits w).rate = s.rate := rfl
@[simp] theorem withFetchWord_fin : (s.withFetchWord nbits w).fin = s.fin := rfl
@[simp] theorem withFetchWord_pad : (s.withFetchWord nbits w).pad = s.pad := rfl
@[simp] theorem withFetchWord_valid : (s.withFetchWord nbits w).valid = s.valid := rfl
@[simp] theorem withFetchWord_hm : (s.withFetchWord nbits w).hm = s.hm := rfl
@[simp] theorem withFetchWord_hmAdmit : (s.withFetchWord nbits w).hmAdmit = s.hmAdmit := rfl
@[simp] theorem withFetchWord_port : (s.withFetchWord nbits w).port = .issue (tableDesc nbits w) :: s.port := rfl
@[simp] theorem withFetchWord_status : (s.withFetchWord nbits w).status = s.status := rfl

end

end Sys2Proof.Machine
end

