-- ==== Sys2Proof/Laws/Sponge.lean ====
section
/-! SUPPORT. The Sponge Context: the variants, the staging buffer, and everything each command's meaning can
answer (42_sponge_commands.md). -/

namespace Sys2Proof.Machine

/-! ### The variants -/

theorem varParams_none_iff (var : Selector) : varParams var = none ↔ 7 < var.toNat := by
  unfold varParams
  split_ifs with h <;> simp [h]

/-- The rates, digest lengths and families a selector can give (R6). -/
theorem varParams_facts {var : Selector} {p : VariantParams} (h : varParams var = some p) :
    legalRate p.rate = true ∧ digestLen p.rate = p.dlen ∧ p.dlen ∈ [28, 32, 48, 64] := by
  have all : ∀ v : BitVec 4, ∀ q ∈ varParams v,
      legalRate q.rate = true ∧ digestLen q.rate = q.dlen ∧ q.dlen ∈ [28, 32, 48, 64] := by decide
  exact all var p h

theorem legalRate_iff (rate : Nat) : legalRate rate = true ↔ rate = 72 ∨ rate = 104 ∨ rate = 136 ∨ rate = 144 := by
  simp [legalRate]

theorem varParams_rate_toNat {var : Selector} {p : VariantParams} (h : varParams var = some p) :
    (BitVec.ofNat 8 p.rate).toNat = p.rate := by
  obtain ⟨h1, -, -⟩ := varParams_facts h
  rw [legalRate_iff] at h1
  rcases h1 with h1 | h1 | h1 | h1 <;> simp [h1]

/-- DLEN of the context an INIT makes. -/
theorem initContext_dlen {var : Selector} {p : VariantParams} (h : varParams var = some p) (s : State) :
    (initContext p s).dlen = p.dlen := by
  simp only [State.dlen, initContext_rate, varParams_rate_toNat h, (varParams_facts h).2.1]

/-! ### The staging buffer -/

theorem nth_stgWrite (stg : Staging) (start : Nat) (v : List Byte) (k : Nat) (h : k < 144) :
    nth (stgWrite stg start v) k 0 =
      if start ≤ k ∧ k < start + v.length then v.getD (k - start) 0 else nth stg k 0 :=
  nth_tabulate _ k 0 h

theorem nth_stgOr (stg : Staging) (j : Nat) (b : Byte) (k : Nat) (h : k < 144) :
    nth (stgOr stg j b) k 0 = if k = j then nth stg k 0 ||| b else nth stg k 0 :=
  nth_tabulate _ k 0 h

theorem length_staged (stg : Staging) (n : Nat) (h : n ≤ 144) : (staged stg n).length = n := by
  simp [staged, h]

theorem staged_eq_map (stg : Staging) (n : Nat) (h : n ≤ 144) :
    staged stg n = (List.range n).map fun i => nth stg i 0 :=
  toList_take_eq_map stg 0 n h

@[simp] theorem staged_zero (stg : Staging) : staged stg 0 = [] := by simp [staged]

theorem staged_congr {stg stg' : Staging} {n : Nat} (hn : n ≤ 144)
    (h : ∀ k, k < n → nth stg k 0 = nth stg' k 0) : staged stg n = staged stg' n := by
  rw [staged_eq_map _ _ hn, staged_eq_map _ _ hn]
  exact List.map_congr_left fun k hk => h k (List.mem_range.1 hk)

/-- Appending to the staged bytes. -/
theorem staged_stgWrite (stg : Staging) (n : Nat) (v : List Byte) (h : n + v.length ≤ 144) :
    staged (stgWrite stg n v) (n + v.length) = staged stg n ++ v := by
  rw [staged_eq_map _ _ h, staged_eq_map _ _ (by omega), List.range_add, List.map_append]
  congr 1
  · refine List.map_congr_left fun k hk => ?_
    have hk := List.mem_range.1 hk
    rw [nth_stgWrite _ _ _ _ (by omega), if_neg (by omega)]
  · apply List.ext_getElem
    · simp
    · intro k h1 h2
      have hk : k < v.length := h2
      simp only [List.getElem_map, List.getElem_range]
      rw [nth_stgWrite _ _ _ _ (by omega), if_pos (by omega)]
      simp [hk]

/-- Writing nothing leaves the buffer. -/
@[simp] theorem stgWrite_nil (stg : Staging) (n : Nat) : stgWrite stg n [] = stg := by
  refine table_ext _ _ 0 fun k => ?_
  rw [nth_stgWrite _ _ _ _ k.isLt]
  simp only [List.length_nil]
  rw [if_neg (by omega)]

/-! ### What each meaning can answer -/

/-- INIT: a bad selector, or a fresh context. -/
theorem execInit_cases (var : Selector) (s : State) :
    (7 < var.toNat ∧ execInit var s = raise .configurationError s) ∨
    (∃ p, varParams var = some p ∧ execInit var s = complete (initContext p s)) := by
  unfold execInit
  cases h : varParams var with
  | none => exact .inl ⟨(varParams_none_iff var).1 h, rfl⟩
  | some p => exact .inr ⟨p, rfl, rfl⟩

/-- UPDATE: no context, ignored, out of range, absorbed, or refused. -/
theorem execUpdate_cases (src len : Nat) (s : State) :
    (s.valid = false ∧ execUpdate src len s = raise .noContextError s) ∨
    (s.valid = true ∧ s.fin = true ∧ execUpdate src len s = complete s) ∨
    (s.valid = true ∧ s.fin = false ∧ Config.addrTop < src + len ∧
      execUpdate src len s = raise .addressRangeError s) ∨
    (s.valid = true ∧ s.fin = false ∧ src + len ≤ Config.addrTop ∧ backed s.hmAdmit src len = true ∧
      execUpdate src len s = complete (updateContext src len s)) ∨
    (s.valid = true ∧ s.fin = false ∧ src + len ≤ Config.addrTop ∧ backed s.hmAdmit src len = false ∧
      execUpdate src len s = .refused .unbackedAddress) := by
  unfold execUpdate pastTop
  have hr := Nat.lt_or_ge Config.addrTop (src + len)
  cases hv : s.valid <;> cases hf : s.fin <;> cases hb : backed s.hmAdmit src len <;>
    rcases hr with hr | hr <;> simp [hr, Nat.not_lt.2]

/-- FINALIZE without a buffer: no context, or the context closed. -/
theorem execFinalize_noBuffer_cases (s : State) :
    (s.valid = false ∧ execFinalize .noBuffer s = raise .noContextError s) ∨
    (s.valid = true ∧ execFinalize .noBuffer s = complete (finalizeContext s)) := by
  unfold execFinalize
  cases hv : s.valid <;> simp

/-- FINALIZE with a buffer: no context, a small buffer, out of range, closed and written, or refused. -/
theorem execFinalize_buffer_cases (cap dst : Nat) (s : State) :
    (s.valid = false ∧ execFinalize (.buffer cap dst) s = raise .noContextError s) ∨
    (s.valid = true ∧ cap < s.dlen ∧ execFinalize (.buffer cap dst) s = raise .bufferTooSmallError s) ∨
    (s.valid = true ∧ s.dlen ≤ cap ∧ Config.addrTop < dst + s.dlen ∧
      execFinalize (.buffer cap dst) s = raise .addressRangeError s) ∨
    (s.valid = true ∧ s.dlen ≤ cap ∧ dst + s.dlen ≤ Config.addrTop ∧ backed s.hmAdmit dst s.dlen = true ∧
      execFinalize (.buffer cap dst) s = complete (writeDigest dst (finalizeContext s))) ∨
    (s.valid = true ∧ s.dlen ≤ cap ∧ dst + s.dlen ≤ Config.addrTop ∧ backed s.hmAdmit dst s.dlen = false ∧
      execFinalize (.buffer cap dst) s = .refused .unbackedAddress) := by
  unfold execFinalize pastTop
  have hc := Nat.lt_or_ge cap s.dlen
  have hr := Nat.lt_or_ge Config.addrTop (dst + s.dlen)
  cases hv : s.valid <;> cases hb : backed s.hmAdmit dst s.dlen <;> rcases hc with hc | hc <;>
    rcases hr with hr | hr <;> simp [hb, hc, hr, Nat.not_lt.2]

/-- HASH: a bad selector, out of range, hashed, or refused. -/
theorem execHash_cases (var : Selector) (src len dst : Nat) (s : State) :
    (7 < var.toNat ∧ execHash var src len dst s = raise .configurationError s) ∨
    (∃ p, varParams var = some p ∧
      (((Config.addrTop < src + len ∨ Config.addrTop < dst + p.dlen) ∧
          execHash var src len dst s = raise .addressRangeError s) ∨
       (src + len ≤ Config.addrTop ∧ dst + p.dlen ≤ Config.addrTop ∧
          backed s.hmAdmit src len = true ∧ backed s.hmAdmit dst p.dlen = true ∧
          execHash var src len dst s =
            complete (writeDigest dst (finalizeContext (updateContext src len (initContext p s))))) ∨
       (src + len ≤ Config.addrTop ∧ dst + p.dlen ≤ Config.addrTop ∧
          (backed s.hmAdmit src len = false ∨ backed s.hmAdmit dst p.dlen = false) ∧
          execHash var src len dst s = .refused .unbackedAddress))) := by
  unfold execHash pastTop
  cases h : varParams var with
  | none => exact .inl ⟨(varParams_none_iff var).1 h, rfl⟩
  | some p =>
    refine .inr ⟨p, rfl, ?_⟩
    have hr := Nat.lt_or_ge Config.addrTop (src + len)
    have hq := Nat.lt_or_ge Config.addrTop (dst + p.dlen)
    cases hb : backed s.hmAdmit src len <;> cases hd : backed s.hmAdmit dst p.dlen <;>
      rcases hr with hr | hr <;> rcases hq with hq | hq <;> simp [hd, hr, hq, Nat.not_lt.2]

end Sys2Proof.Machine
end

