-- ==== Sys2Proof/Laws/Digest.lean ====
section
/-! SUPPORT. Blocks of a byte sequence, and the loop of UPDATE as the absorption of blocks
(42_sponge_commands.md R103, R111). -/

namespace Sys2Proof.Machine

@[simp] theorem absorbBlocks_nil (rate : Nat) (A : Lanes) : absorbBlocks rate [] A = A := rfl

@[simp] theorem absorbBlocks_cons (rate : Nat) (b : List Byte) (bs : List (List Byte)) (A : Lanes) :
    absorbBlocks rate (b :: bs) A = absorbBlocks rate bs (absorbBlock rate b A) := rfl

theorem absorbBlocks_append (rate : Nat) (bs cs : List (List Byte)) (A : Lanes) :
    absorbBlocks rate (bs ++ cs) A = absorbBlocks rate cs (absorbBlocks rate bs A) := by
  simp [absorbBlocks, List.foldl_append]

@[simp] theorem length_wholeBlocks (rate : Nat) (m : List Byte) :
    (wholeBlocks rate m).length = m.length / rate := by
  simp [wholeBlocks]

/-- A sequence of less than one block has no whole block. -/
theorem wholeBlocks_of_lt {rate : Nat} {m : List Byte} (h : m.length < rate) : wholeBlocks rate m = [] := by
  simp [wholeBlocks, Nat.div_eq_of_lt h]

theorem remainder_of_lt {rate : Nat} {m : List Byte} (h : m.length < rate) : remainder rate m = m := by
  simp [remainder, Nat.div_eq_of_lt h]

/-- A first block followed by more bytes. -/
theorem wholeBlocks_append {rate : Nat} (hr : 0 < rate) {b m : List Byte} (hb : b.length = rate) :
    wholeBlocks rate (b ++ m) = b :: wholeBlocks rate m := by
  have hlen : (b ++ m).length / rate = m.length / rate + 1 := by
    rw [List.length_append, hb, Nat.add_comm, Nat.add_div_right _ hr]
  unfold wholeBlocks
  rw [hlen, List.range_succ_eq_map, List.map_cons, List.map_map]
  congr 1
  · simp [blockAt, ← hb]
  · refine List.map_congr_left fun k _ => ?_
    have e : (k + 1) * rate = b.length + k * rate := by rw [hb, Nat.succ_mul, Nat.add_comm]
    simp only [Function.comp, blockAt, Nat.succ_eq_add_one, e]
    rw [← List.drop_drop, List.drop_left]

theorem remainder_append {rate : Nat} (hr : 0 < rate) {b m : List Byte} (hb : b.length = rate) :
    remainder rate (b ++ m) = remainder rate m := by
  have hlen : (b ++ m).length / rate = m.length / rate + 1 := by
    rw [List.length_append, hb, Nat.add_comm, Nat.add_div_right _ hr]
  have e : (m.length / rate + 1) * rate = b.length + m.length / rate * rate := by
    rw [hb, Nat.succ_mul, Nat.add_comm]
  rw [remainder, remainder, hlen, e, ← List.drop_drop, List.drop_left]

@[simp] theorem length_remainder (rate : Nat) (m : List Byte) :
    (remainder rate m).length = m.length % rate := by
  simp only [remainder, List.length_drop]
  have := Nat.div_add_mod' m.length rate
  omega

/-- The loop of UPDATE absorbs the whole blocks of its input. -/
theorem absorbFrom_eq (m : Memory) (rate : Nat) (hr : 0 < rate) (count addr : Nat) (A : Lanes) :
    absorbFrom m rate count addr A = absorbBlocks rate (wholeBlocks rate (memRead m addr (count * rate))) A := by
  induction count generalizing addr A with
  | zero => simp [absorbFrom, wholeBlocks_of_lt, hr]
  | succ n ih =>
    rw [absorbFrom, ih, Nat.succ_mul, Nat.add_comm (n * rate), memRead_append,
      wholeBlocks_append hr (by simp), absorbBlocks_cons]

end Sys2Proof.Machine
end

