-- ==== Sys2Proof/Laws/Exec.lean ====
section
/-! SUPPORT. Everything a command and a step can do, said once: exec_next_cases and step_next_cases
(42_sponge_commands.md R97, R99, R101, R105, R108). -/

namespace Sys2Proof.Machine

/-- What a command that has a next state did. -/
inductive Did (s : State) : Instr → State → Prop where
  /-- It ended with an error: only the status is new. -/
  | failed (i : Instr) (e : Status) (he : e ≠ .ok) : Did s i { s with status := some e }
  /-- INIT with a valid selector. -/
  | init (var : Selector) (p : VariantParams) (hp : varParams var = some p) :
      Did s (.init var) { initContext p s with status := some .ok }
  /-- UPDATE on a Finalized context. -/
  | ignored (src len : Nat) (hv : s.valid = true) (hf : s.fin = true) :
      Did s (.update src len) { s with status := some .ok }
  /-- UPDATE on an Active context. -/
  | update (src len : Nat) (hv : s.valid = true) (hf : s.fin = false) (hr : usable s src len) :
      Did s (.update src len) { updateContext src len s with status := some .ok }
  /-- FINALIZE without a buffer. -/
  | close (hv : s.valid = true) : Did s (.finalize .noBuffer) { finalizeContext s with status := some .ok }
  /-- FINALIZE with a buffer. -/
  | write (cap dst : Nat) (hv : s.valid = true) (hc : s.dlen ≤ cap) (hr : usable s dst s.dlen) :
      Did s (.finalize (.buffer cap dst)) { writeDigest dst (finalizeContext s) with status := some .ok }
  /-- HASH. -/
  | hash (var : Selector) (p : VariantParams) (src len dst : Nat) (hp : varParams var = some p)
      (hs : usable s src len) (hd : usable s dst p.dlen) :
      Did s (.hash var src len dst)
        { writeDigest dst (finalizeContext (updateContext src len (initContext p s))) with status := some .ok }

/-- Everything a command that answers a next state can have done. -/
theorem exec_next_cases {i : Instr} {s t : State} (h : exec i s = .next t) : Did s i t := by
  cases i with
  | init var =>
    rcases execInit_cases var s with ⟨-, e⟩ | ⟨p, hp, e⟩
    all_goals
      rw [exec, e] at h
      simp only [raise_next_iff, complete_next_iff] at h
      subst h
    · exact .failed _ _ (by decide)
    · exact .init var p hp
  | update src len =>
    rcases execUpdate_cases src len s with ⟨-, e⟩ | ⟨hv, hf, e⟩ | ⟨-, -, -, e⟩ | ⟨hv, hf, hr, hb, e⟩ | ⟨-, -, -, -, e⟩
    · rw [exec, e, raise_next_iff] at h
      subst h
      exact .failed _ _ (by decide)
    · rw [exec, e, complete_next_iff] at h
      subst h
      exact .ignored src len hv hf
    · rw [exec, e, raise_next_iff] at h
      subst h
      exact .failed _ _ (by decide)
    · rw [exec, e, complete_next_iff] at h
      subst h
      exact .update src len hv hf ⟨hr, hb⟩
    · rw [exec, e] at h
      cases h
  | finalize out =>
    cases out with
    | noBuffer =>
      rcases execFinalize_noBuffer_cases s with ⟨-, e⟩ | ⟨hv, e⟩
      · rw [exec, e, raise_next_iff] at h
        subst h
        exact .failed _ _ (by decide)
      · rw [exec, e, complete_next_iff] at h
        subst h
        exact .close hv
    | buffer cap dst =>
      rcases execFinalize_buffer_cases cap dst s with
        ⟨-, e⟩ | ⟨-, -, e⟩ | ⟨-, -, -, e⟩ | ⟨hv, hc, hr, hb, e⟩ | ⟨-, -, -, -, e⟩
      · rw [exec, e, raise_next_iff] at h
        subst h
        exact .failed _ _ (by decide)
      · rw [exec, e, raise_next_iff] at h
        subst h
        exact .failed _ _ (by decide)
      · rw [exec, e, raise_next_iff] at h
        subst h
        exact .failed _ _ (by decide)
      · rw [exec, e, complete_next_iff] at h
        subst h
        exact .write cap dst hv hc ⟨hr, hb⟩
      · rw [exec, e] at h
        cases h
  | hash var src len dst =>
    rcases execHash_cases var src len dst s with
      ⟨-, e⟩ | ⟨p, hp, ⟨-, e⟩ | ⟨h1, h2, h3, h4, e⟩ | ⟨-, -, -, e⟩⟩
    · rw [exec, e, raise_next_iff] at h
      subst h
      exact .failed _ _ (by decide)
    · rw [exec, e, raise_next_iff] at h
      subst h
      exact .failed _ _ (by decide)
    · rw [exec, e, complete_next_iff] at h
      subst h
      exact .hash var p src len dst hp ⟨h1, h3⟩ ⟨h2, h4⟩
    · rw [exec, e] at h
      cases h

/-- No command stops with a fault. -/
theorem exec_ne_fault (i : Instr) (s : State) (f : Fault) : exec i s ≠ .fault f := nomatch f

/-- What a step that has a next state did. -/
inductive Stepped (s : State) : State → Prop where
  /-- Nothing was pending. -/
  | idle (hp : s.port = []) : Stepped s { s with status := none }
  /-- The host stored a byte. -/
  | store (addr : BitVec 32) (b : Byte) (rest : List HostAction) (hp : s.port = .store addr b :: rest)
      (ha : admits s.hmAdmit addr.toNat = true) :
      Stepped s { s with port := rest, hm := writeByte s.hm addr.toNat b, status := none }
  /-- A descriptor encoded no command. -/
  | illegal (d : Desc) (why : IllegalReason) (rest : List HostAction) (hp : s.port = .issue d :: rest)
      (hd : decode d = .illegal why) :
      Stepped s { s with port := rest, status := some .illegalCommandError }
  /-- A command ran. -/
  | ran (d : Desc) (i : Instr) (rest : List HostAction) (t : State) (hp : s.port = .issue d :: rest)
      (hd : decode d = .command i) (ht : exec i { s with port := rest } = .next t) : Stepped s t

/-- Everything a step that answers a next state can have done. -/
theorem step_next_cases {s t : State} (h : step s = .next t) : Stepped s t := by
  unfold step at h
  split at h
  · rename_i hp
    simp only [idle, Host.Outcome.next.injEq] at h
    subst h
    exact .idle hp
  · rename_i action rest hp
    cases action with
    | issue d =>
      simp only [takeAction, runDesc] at h
      cases hd : decode d with
      | command i =>
        simp only [hd] at h
        exact .ran d i rest t hp hd h
      | illegal why =>
        simp only [hd, raise_next_iff] at h
        subst h
        exact .illegal d why rest hp hd
    | store addr b =>
      simp only [takeAction, hostStore] at h
      split at h
      · rename_i ha
        simp only [Host.Outcome.next.injEq] at h
        subst h
        exact .store addr b rest hp ha
      · cases h

/-- A step on a descriptor of a command is that command. -/
theorem step_issue {s : State} {d : Desc} {rest : List HostAction} (hp : s.port = .issue d :: rest) :
    step s = runDesc d { s with port := rest } := by
  simp only [step, hp, takeAction]

end Sys2Proof.Machine
end

