-- ==== Sys2Proof/Laws/Context.lean ====
section
/-! SUPPORT. What the shared operations of the commands do to a context: the invariant's halves as
propositions, UPDATE's effect in closed form, the padding of a message block by block, and FINALIZE's effect
(10_state.md R23, R24; 42_sponge_commands.md R101 to R105, R111). -/

namespace Sys2Proof.Machine

/-! ### The invariant -/

theorem contextOk_iff (s : State) :
    s.contextOk = true ↔
      (s.valid = true → legalRate s.rate.toNat = true ∧ s.bufLen.toNat < s.rate.toNat ∧
        (s.fin = true → s.bufLen.toNat = 0)) := by
  unfold State.contextOk
  cases s.valid <;> cases s.fin <;> simp [and_assoc]

theorem memoryOk_iff (s : State) :
    s.memoryOk = true ↔ s.hm.wf = true ∧ ∀ c ∈ s.hm, admits s.hmAdmit c.1 = true := by
  simp [State.memoryOk]

theorem inv_iff (s : State) : s.inv = true ↔ s.contextOk = true ∧ s.memoryOk = true := by
  simp [State.inv]

/-- States with equal fields are equal. -/
theorem state_ext {s t : State} (h1 : s.a = t.a) (h2 : s.stg = t.stg) (h3 : s.bufLen = t.bufLen)
    (h4 : s.rate = t.rate) (h5 : s.fin = t.fin) (h6 : s.pad = t.pad) (h7 : s.valid = t.valid)
    (h8 : s.hm = t.hm) (h9 : s.hmAdmit = t.hmAdmit) (h10 : s.port = t.port) (h11 : s.status = t.status) :
    s = t := by
  cases s
  cases t
  simp only [State.mk.injEq]
  exact ⟨h1, h2, h3, h4, h5, h6, h7, h8, h9, h10, h11⟩

/-! ### UPDATE's effect -/

/-- State `t` is what absorbing the bytes `m`, from an empty staging buffer, makes of the lanes of `s`. -/
structure Absorbed (s t : State) (m : List Byte) : Prop where
  a : t.a = absorbBlocks s.rate.toNat (wholeBlocks s.rate.toNat m) s.a
  staged : staged t.stg t.bufLen.toNat = remainder s.rate.toNat m
  bufLen : t.bufLen.toNat = m.length % s.rate.toNat

theorem absorbInput_absorbed (s : State) (src len : Nat) (h0 : 0 < s.rate.toNat) (h1 : s.rate.toNat ≤ 144) :
    Absorbed s (absorbInput src len s) (memRead s.hm src len) := by
  have e : len - len / s.rate.toNat * s.rate.toNat = len % s.rate.toNat := by
    have := Nat.div_add_mod' len s.rate.toNat
    omega
  have hlt := Nat.mod_lt len h0
  have hn : (absorbInput src len s).bufLen.toNat = len % s.rate.toNat := by
    rw [absorbInput_bufLen, e, BitVec.toNat_ofNat, Nat.mod_eq_of_lt (by omega)]
  refine ⟨?_, ?_, by simpa using hn⟩
  · rw [absorbInput_a, absorbFrom_eq _ _ h0]
    congr 1
    unfold wholeBlocks
    simp only [length_memRead]
    rw [Nat.mul_div_cancel _ h0]
    refine List.map_congr_left fun k hk => ?_
    have h2 : (k + 1) * s.rate.toNat ≤ len / s.rate.toNat * s.rate.toNat :=
      Nat.mul_le_mul_right _ (List.mem_range.1 hk)
    rw [Nat.succ_mul] at h2
    have h3 : len / s.rate.toNat * s.rate.toNat ≤ len := Nat.div_mul_le_self _ _
    unfold blockAt
    rw [take_drop_memRead _ _ _ _ _ (by omega), take_drop_memRead _ _ _ _ _ (by omega)]
  · have := staged_stgWrite s.stg 0
      (memRead s.hm (src + len / s.rate.toNat * s.rate.toNat) (len % s.rate.toNat)) (by simp; omega)
    simp only [length_memRead, Nat.zero_add, staged_zero, List.nil_append] at this
    rw [hn, absorbInput_stg, e, this, remainder, length_memRead, drop_memRead _ _ _ _ (Nat.div_mul_le_self _ _), e]

/-- UPDATE's effect is the absorption of the staged bytes followed by the input. -/
theorem updateContext_absorbed (s : State) (src len : Nat) (hr : legalRate s.rate.toNat = true)
    (hb : s.bufLen.toNat < s.rate.toNat) :
    Absorbed s (updateContext src len s) (staged s.stg s.bufLen.toNat ++ memRead s.hm src len) := by
  rw [legalRate_iff] at hr
  have h0 : 0 < s.rate.toNat := by omega
  have h1 : s.rate.toNat ≤ 144 := by omega
  have hls : (staged s.stg s.bufLen.toNat).length = s.bufLen.toNat := length_staged _ _ (by omega)
  unfold updateContext
  dsimp only
  split_ifs with hz hlt
  · rw [hz]
    simpa using absorbInput_absorbed s src len h0 h1
  · have hlen : (staged s.stg s.bufLen.toNat ++ memRead s.hm src len).length = s.bufLen.toNat + len := by
      simp [hls]
    have hn : (BitVec.ofNat 8 (s.bufLen.toNat + len)).toNat = s.bufLen.toNat + len := by
      rw [BitVec.toNat_ofNat, Nat.mod_eq_of_lt (by omega)]
    refine ⟨?_, ?_, ?_⟩
    · rw [wholeBlocks_of_lt (by omega), absorbBlocks_nil]
    · dsimp only
      rw [hn, remainder_of_lt (by omega)]
      have := staged_stgWrite s.stg s.bufLen.toNat (memRead s.hm src len) (by simp; omega)
      rwa [length_memRead] at this
    · dsimp only
      rw [hn, hlen, Nat.mod_eq_of_lt (by omega)]
  · obtain ⟨rest, hrest⟩ := Nat.exists_eq_add_of_le (show s.rate.toNat - s.bufLen.toNat ≤ len by omega)
    generalize hneed : s.rate.toNat - s.bufLen.toNat = need at *
    have hblk := staged_stgWrite s.stg s.bufLen.toNat (memRead s.hm src need) (by simp; omega)
    rw [length_memRead, show s.bufLen.toNat + need = s.rate.toNat by omega] at hblk
    have hbl : (staged s.stg s.bufLen.toNat ++ memRead s.hm src need).length = s.rate.toNat := by
      rw [List.length_append, hls, length_memRead]
      omega
    rw [hblk, hrest, memRead_append, ← List.append_assoc, Nat.add_sub_cancel_left]
    have c := absorbInput_absorbed
      { s with
        a := absorbBlock s.rate.toNat (staged s.stg s.bufLen.toNat ++ memRead s.hm src need) s.a
        stg := stgWrite s.stg s.bufLen.toNat (memRead s.hm src need)
        bufLen := 0 } (src + need) rest h0 h1
    refine ⟨?_, ?_, ?_⟩
    · rw [wholeBlocks_append h0 hbl, absorbBlocks_cons]
      exact c.a
    · rw [remainder_append h0 hbl]
      exact c.staged
    · rw [List.length_append, hbl, Nat.add_mod_left]
      exact c.bufLen

/-- UPDATE's effect writes A, STG and BUFLEN only. -/
theorem updateContext_eq (s : State) (src len : Nat) :
    updateContext src len s =
      { s with
        a := (updateContext src len s).a
        stg := (updateContext src len s).stg
        bufLen := (updateContext src len s).bufLen } := by
  apply state_ext <;> simp

/-! ### Absorbing in two goes -/

/-- Absorbing `x` and then `y` after the bytes of `x` left over is absorbing `x ++ y`. -/
theorem absorbBlocks_split {rate : Nat} (hr : 0 < rate) (A : Lanes) (x y : List Byte) :
    absorbBlocks rate (wholeBlocks rate (remainder rate x ++ y)) (absorbBlocks rate (wholeBlocks rate x) A) =
        absorbBlocks rate (wholeBlocks rate (x ++ y)) A ∧
      remainder rate (remainder rate x ++ y) = remainder rate (x ++ y) := by
  induction h : x.length / rate generalizing x A with
  | zero =>
    have hx : x.length < rate := by
      rcases Nat.div_eq_zero_iff.1 h with h | h <;> omega
    rw [remainder_of_lt hx, wholeBlocks_of_lt hx]
    exact ⟨rfl, rfl⟩
  | succ n ih =>
    have hle : rate ≤ x.length := by
      by_contra hc
      rw [Nat.div_eq_of_lt (by omega)] at h
      omega
    have hx : x = x.take rate ++ x.drop rate := (List.take_append_drop _ _).symm
    have hb : (x.take rate).length = rate := by simp [hle]
    generalize x.take rate = b at *
    generalize x.drop rate = m at *
    subst hx
    rw [remainder_append hr hb, wholeBlocks_append hr hb, List.append_assoc, wholeBlocks_append hr hb,
      remainder_append hr hb, absorbBlocks_cons, absorbBlocks_cons]
    apply ih
    rw [List.length_append, hb, Nat.add_comm, Nat.add_div_right _ hr] at h
    omega

/-! ### Padding -/

/-- The bytes the padding appends to a message of `n` bytes. -/
def padTail (rate : Nat) (dsb : Byte) (n : Nat) : List Byte :=
  if rate - n % rate = 1 then [dsb ||| 0x80]
  else [dsb] ++ List.replicate (rate - n % rate - 2) 0 ++ [0x80]

theorem padMessage_eq_append (rate : Nat) (dsb : Byte) (m : List Byte) :
    padMessage rate dsb m = m ++ padTail rate dsb m.length := by
  unfold padMessage padTail
  dsimp only
  split_ifs <;> simp

theorem padTail_mod (rate : Nat) (dsb : Byte) (n : Nat) : padTail rate dsb (n % rate) = padTail rate dsb n := by
  unfold padTail
  rw [Nat.mod_mod]

theorem length_padTail {rate : Nat} (dsb : Byte) (n : Nat) (h : 0 < rate) :
    (padTail rate dsb n).length = rate - n % rate := by
  unfold padTail
  have := Nat.mod_lt n h
  split_ifs <;> simp <;> omega

/-- Absorbing the padded rest of a message after its whole blocks is absorbing the padded message. -/
theorem absorbBlock_padMessage {rate : Nat} (dsb : Byte) (m : List Byte) (h : 0 < rate) (A : Lanes) :
    absorbBlock rate (padMessage rate dsb (remainder rate m)) (absorbBlocks rate (wholeBlocks rate m) A) =
      absorbBlocks rate (wholeBlocks rate (padMessage rate dsb m)) A := by
  have hm := Nat.mod_lt m.length h
  have e : padMessage rate dsb (remainder rate m) = remainder rate m ++ padTail rate dsb m.length := by
    rw [padMessage_eq_append, length_remainder, padTail_mod]
  have hl : (padMessage rate dsb (remainder rate m)).length = rate := by
    rw [e, List.length_append, length_padTail _ _ h, length_remainder]
    omega
  have w := wholeBlocks_append h (m := []) hl
  rw [List.append_nil, wholeBlocks_of_lt (m := []) (by simpa using h)] at w
  have := (absorbBlocks_split h A m (padTail rate dsb m.length)).1
  rw [← e, w] at this
  rw [padMessage_eq_append rate dsb m, ← this, absorbBlocks_cons, absorbBlocks_nil]

/-- PadBlock makes of the staged bytes their padded message. -/
theorem staged_padBlock (stg : Staging) (n rate : Nat) (pad : Bool) (h : n < rate) (hr : rate ≤ 144) :
    staged (padBlock stg n rate pad) rate = padMessage rate (domainByte pad) (staged stg n) := by
  have hls := length_staged stg n (by omega)
  have hroom : rate - (staged stg n).length % rate = rate - n := by rw [hls, Nat.mod_eq_of_lt h]
  have hlen : (padMessage rate (domainByte pad) (staged stg n)).length = rate := by
    rw [padMessage_eq_append, List.length_append, length_padTail _ _ (by omega), hroom, hls]
    omega
  apply List.ext_getElem
  · rw [length_staged _ _ hr, hlen]
  · intro k h1 h2
    have hk : k < rate := by rwa [hlen] at h2
    have e1 : (staged (padBlock stg n rate pad) rate)[k] = nth (padBlock stg n rate pad) k 0 := by
      simp [staged_eq_map _ _ hr]
    rw [e1, padBlock, nth_stgOr _ _ _ _ (by omega), nth_stgOr _ _ _ _ (by omega), nth_stgWrite _ _ _ _ (by omega)]
    have e2 : ∀ j (hj : j < n), (staged stg n)[j]'(by omega) = nth stg j 0 := by
      intro j hj
      simp [staged_eq_map stg n (by omega)]
    have e3 : (List.replicate (rate - n) (0 : Byte)).getD (k - n) 0 = 0 := by
      by_cases hh : k - n < rate - n <;> simp [hh]
    have z : ∀ x : Byte, 0 ||| x = x := by decide
    rw [e3, List.length_replicate]
    unfold padMessage
    simp only [hroom]
    split_ifs <;>
      simp only [List.getElem_append, hls, List.length_append, List.length_singleton, List.length_replicate,
        List.getElem_replicate] <;>
      (try split_ifs) <;> (try omega) <;> simp_all

/-! ### FINALIZE's effect -/

/-- FINALIZE's effect on an Active context: the padded block absorbed, the context closed. -/
theorem finalizeContext_active {s : State} (hr : legalRate s.rate.toNat = true)
    (hb : s.bufLen.toNat < s.rate.toNat) (hf : s.fin = false) :
    finalizeContext s =
      { s with
        a := absorbBlock s.rate.toNat
          (padMessage s.rate.toNat (domainByte s.pad) (staged s.stg s.bufLen.toNat)) s.a
        stg := (finalizeContext s).stg
        fin := true
        bufLen := 0 } := by
  have := (legalRate_iff _).1 hr
  rw [← staged_padBlock _ _ _ _ hb (by omega)]
  simp [finalizeContext, hf]

/-! ### Where the commands complete -/

theorem exec_init_next {var : Selector} {p : VariantParams} (hp : varParams var = some p) (s : State) :
    exec (.init var) s = .next { initContext p s with status := some .ok } := by
  simp [exec, execInit, hp, complete_eq]

theorem exec_update_next {s : State} {src len : Nat} (hv : s.valid = true) (hf : s.fin = false)
    (hu : usable s src len) :
    exec (.update src len) s = .next { updateContext src len s with status := some .ok } := by
  simp [exec, execUpdate, hv, hf, pastTop, Nat.not_lt.2 hu.1, hu.2, complete_eq]

/-- UPDATE on a Finalized context changes the status only (R102 (b)). -/
theorem exec_update_finalized {s : State} (src len : Nat) (hv : s.valid = true) (hf : s.fin = true) :
    exec (.update src len) s = .next { s with status := some .ok } := by
  rw [exec, execUpdate, if_neg (by simp [hv]), if_pos hf, complete_eq]

theorem exec_finalize_noBuffer_next {s : State} (hv : s.valid = true) :
    exec (.finalize .noBuffer) s = .next { finalizeContext s with status := some .ok } := by
  simp [exec, execFinalize, hv, complete_eq]

theorem exec_finalize_buffer_next {s : State} {cap dst : Nat} (hv : s.valid = true) (hc : s.dlen ≤ cap)
    (hu : usable s dst s.dlen) :
    exec (.finalize (.buffer cap dst)) s =
      .next { writeDigest dst (finalizeContext s) with status := some .ok } := by
  simp [exec, execFinalize, hv, pastTop, Nat.not_lt.2 hu.1, Nat.not_lt.2 hc, hu.2, complete_eq]

theorem exec_hash_next {s : State} {var : Selector} {p : VariantParams} {src len dst : Nat}
    (hp : varParams var = some p) (hs : usable s src len) (hd : usable s dst p.dlen) :
    exec (.hash var src len dst) s =
      .next { writeDigest dst (finalizeContext (updateContext src len (initContext p s))) with
        status := some .ok } := by
  simp [exec, execHash, hp, pastTop, Nat.not_lt.2 hs.1, Nat.not_lt.2 hd.1, hs.2, hd.2, complete_eq]

end Sys2Proof.Machine
end

