-- ==== Sys2Proof/Laws/Decode.lean ====
section
/-! SUPPORT. The descriptor's words and the command word's fields (30_encoding.md R56, R57). -/

namespace Sys2Proof

section
variable (w0 w1 w2 w3 : BitVec 32)

/-- Bit `i` of a descriptor, by the word it is in. -/
theorem getLsbD_descOfWords (i : Nat) :
    (descOfWords w0 w1 w2 w3).getLsbD i =
      if i < 32 then w0.getLsbD i else if i < 64 then w1.getLsbD (i - 32)
      else if i < 96 then w2.getLsbD (i - 64) else w3.getLsbD (i - 96) := by
  have h : (descOfWords w0 w1 w2 w3).getLsbD i = (w3 ++ w2 ++ w1 ++ w0 : BitVec (32 + 32 + 32 + 32)).getLsbD i :=
    rfl
  rw [h, BitVec.getLsbD_append, BitVec.getLsbD_append, BitVec.getLsbD_append]
  have e2 : i - 32 - 32 = i - 64 := by omega
  have e3 : i - 64 - 32 = i - 96 := by omega
  rw [e2, e3]
  split_ifs <;> first | rfl | omega

theorem getLsbD_descWord (d : Desc) (k i : Nat) (hi : i < 32) :
    (descWord d k).getLsbD i = d.getLsbD (32 * k + i) := by
  rw [descWord, BitVec.getLsbD_extractLsb']
  simp [hi]

theorem descWord_zero : descWord (descOfWords w0 w1 w2 w3) 0 = w0 := by
  apply BitVec.eq_of_getLsbD_eq
  intro i hi
  rw [getLsbD_descWord _ _ _ hi, getLsbD_descOfWords, if_pos (by omega)]
  congr 1
  omega

theorem descWord_one : descWord (descOfWords w0 w1 w2 w3) 1 = w1 := by
  apply BitVec.eq_of_getLsbD_eq
  intro i hi
  rw [getLsbD_descWord _ _ _ hi, getLsbD_descOfWords, if_neg (by omega), if_pos (by omega)]
  congr 1
  omega

theorem descWord_two : descWord (descOfWords w0 w1 w2 w3) 2 = w2 := by
  apply BitVec.eq_of_getLsbD_eq
  intro i hi
  rw [getLsbD_descWord _ _ _ hi, getLsbD_descOfWords, if_neg (by omega), if_neg (by omega), if_pos (by omega)]
  congr 1
  omega

theorem descWord_three : descWord (descOfWords w0 w1 w2 w3) 3 = w3 := by
  apply BitVec.eq_of_getLsbD_eq
  intro i hi
  rw [getLsbD_descWord _ _ _ hi, getLsbD_descOfWords, if_neg (by omega), if_neg (by omega), if_neg (by omega)]
  congr 1
  omega

end

/-- A descriptor is its four words. -/
theorem descOfWords_descWord (d : Desc) :
    descOfWords (descWord d 0) (descWord d 1) (descWord d 2) (descWord d 3) = d := by
  apply BitVec.eq_of_getLsbD_eq
  intro i hi
  rw [getLsbD_descOfWords]
  split_ifs
  all_goals
    rw [getLsbD_descWord _ _ _ (by omega)]
    congr 1
    omega

section
variable (nb : Bool) (var : Selector) (op : BitVec 4)

@[simp] theorem fieldRsv_commandWord : fieldRsv (commandWord nb var op) = 0 := by
  have all : ∀ (nb : Bool) (var op : BitVec 4), fieldRsv (commandWord nb var op) = 0 := by decide
  exact all nb var op

@[simp] theorem fieldNb_commandWord : fieldNb (commandWord nb var op) = nb := by
  have all : ∀ (nb : Bool) (var op : BitVec 4), fieldNb (commandWord nb var op) = nb := by decide
  exact all nb var op

@[simp] theorem fieldVar_commandWord : fieldVar (commandWord nb var op) = var := by
  have all : ∀ (nb : Bool) (var op : BitVec 4), fieldVar (commandWord nb var op) = var := by decide
  exact all nb var op

@[simp] theorem fieldOp_commandWord : fieldOp (commandWord nb var op) = op := by
  have all : ∀ (nb : Bool) (var op : BitVec 4), fieldOp (commandWord nb var op) = op := by decide
  exact all nb var op

end

/-- A command word whose reserved field is zero is its other three fields. -/
theorem commandWord_fields (w0 : BitVec 32) (h : fieldRsv w0 = 0) :
    commandWord (fieldNb w0) (fieldVar w0) (fieldOp w0) = w0 := by
  apply BitVec.eq_of_getLsbD_eq
  intro i hi
  have hr : ∀ j, j < 23 → w0.getLsbD (9 + j) = false := by
    intro j hj
    have := congrArg (fun x : BitVec 23 => x.getLsbD j) h
    simpa [fieldRsv, hj] using this
  have hc : (commandWord (fieldNb w0) (fieldVar w0) (fieldOp w0)).getLsbD i =
      ((0 : BitVec 23) ++ BitVec.ofBool (fieldNb w0) ++ fieldVar w0 ++ fieldOp w0 :
        BitVec (23 + 1 + 4 + 4)).getLsbD i := rfl
  rw [hc, BitVec.getLsbD_append, BitVec.getLsbD_append, BitVec.getLsbD_append]
  by_cases h0 : i < 4
  · simp [h0, fieldOp]
  · by_cases h1 : i - 4 < 4
    · have e : 4 + (i - 4) = i := by omega
      rw [if_neg h0, if_pos h1, fieldVar, BitVec.getLsbD_extractLsb', e]
      simp [h1]
    · by_cases h2 : i - 4 - 4 < 1
      · have e : i = 8 := by omega
        subst e
        simp [fieldNb]
      · have e : 9 + (i - 9) = i := by omega
        have := hr (i - 9) (by omega)
        rw [e] at this
        simp [h0, h1, h2, this]

/-! ### The decoder's first test, and what WellFormed asks -/

/-- A set reserved bit makes the descriptor illegal, whatever else it holds (R62). -/
theorem decode_of_rsv_ne_zero (d : Desc) (h : fieldRsv (descWord d 0) ≠ 0) :
    decode d = .illegal .reservedBits := if_pos h

section
variable (d : Desc) (var : Selector)

theorem decode_init (h : descWord d 0 = commandWord false var 1) : decode d = .command (.init var) := by
  simp [decode, h]

theorem decode_update (h : descWord d 0 = commandWord false 0 2) :
    decode d = .command (.update (descWord d 1).toNat (descWord d 2).toNat) := by
  simp [decode, h]

theorem decode_finalize_buffer (h : descWord d 0 = commandWord false 0 3) :
    decode d = .command (.finalize (.buffer (descWord d 2).toNat (descWord d 3).toNat)) := by
  simp [decode, h]

theorem decode_finalize_noBuffer (h : descWord d 0 = commandWord true 0 3) :
    decode d = .command (.finalize .noBuffer) := by
  simp [decode, h]

theorem decode_hash (h : descWord d 0 = commandWord false var 4) :
    decode d = .command (.hash var (descWord d 1).toNat (descWord d 2).toNat (descWord d 3).toNat) := by
  simp [decode, h]

end

/-! ### The fields as bits of the descriptor (R56, R57) -/

section
variable (d : Desc)

theorem fieldOp_descWord : fieldOp (descWord d 0) = d.extractLsb' 0 4 := by
  apply BitVec.eq_of_getLsbD_eq
  intro i hi
  have h : i < 32 := by omega
  simp [fieldOp, descWord, hi]

theorem fieldVar_descWord : fieldVar (descWord d 0) = d.extractLsb' 4 4 := by
  apply BitVec.eq_of_getLsbD_eq
  intro i hi
  have h : 4 + i < 32 := by omega
  simp [fieldVar, descWord, hi]

theorem fieldRsv_descWord : fieldRsv (descWord d 0) = d.extractLsb' 9 23 := by
  apply BitVec.eq_of_getLsbD_eq
  intro i hi
  have h : 9 + i < 32 := by omega
  simp [fieldRsv, descWord, hi]

theorem fieldNb_descWord : fieldNb (descWord d 0) = d.getLsbD 8 := by
  simp [fieldNb, descWord]

end

theorem fitsAddr_iff (n : Nat) : fitsAddr n = true ↔ n < 2 ^ 32 := decide_eq_true_iff

theorem fitsLen_iff (n : Nat) : fitsLen n = true ↔ n < 2 ^ 32 := decide_eq_true_iff

theorem wf_update_iff (src len : Nat) : (Instr.update src len).wf = true ↔ src < 2 ^ 32 ∧ len < 2 ^ 32 := by
  rw [Instr.wf, Bool.and_eq_true, fitsAddr_iff, fitsLen_iff]

theorem wf_finalize_buffer_iff (cap dst : Nat) :
    (Instr.finalize (.buffer cap dst)).wf = true ↔ cap < 2 ^ 32 ∧ dst < 2 ^ 32 := by
  rw [Instr.wf, OutBuffer.wf, Bool.and_eq_true, fitsAddr_iff, fitsLen_iff]

theorem wf_hash_iff (var : Selector) (src len dst : Nat) :
    (Instr.hash var src len dst).wf = true ↔ src < 2 ^ 32 ∧ len < 2 ^ 32 ∧ dst < 2 ^ 32 := by
  rw [Instr.wf, Bool.and_eq_true, Bool.and_eq_true, fitsAddr_iff, fitsLen_iff, fitsAddr_iff, and_assoc]

end Sys2Proof
end

