-- ==== Sys2Proof/Laws/PerInstr.lean ====
section
/-! SUPPORT. Per-command statements: the command word of every encoding matches its row of
spec/opcode_table.json (30_encoding.md R64). -/

namespace Sys2Proof.Laws.TableMatch

/-- The row's mask (R64). -/
def mask : Instr → BitVec 32
  | .init _ => 0xFFFFFF0F
  | .update _ _ => 0xFFFFFFFF
  | .finalize _ => 0xFFFFFEFF
  | .hash _ _ _ _ => 0xFFFFFF0F

/-- The row's match (R64). -/
def pattern : Instr → BitVec 32
  | .init _ => 0x00000001
  | .update _ _ => 0x00000002
  | .finalize _ => 0x00000003
  | .hash _ _ _ _ => 0x00000004

/-- The command word of the encoding matches the row. -/
def Statement (i : Instr) : Prop := descWord (encode i) 0 &&& mask i = pattern i

theorem init (var : Selector) : Statement (.init var) := by
  have all : ∀ var : BitVec 4, commandWord false var 1 &&& 0xFFFFFF0F = 0x00000001 := by decide
  simpa [Statement, encode, descWord_zero, mask, pattern] using all var

theorem update (src len : Nat) : Statement (.update src len) := by
  simp [Statement, encode, descWord_zero, mask, pattern, commandWord]

theorem finalize (out : OutBuffer) : Statement (.finalize out) := by
  cases out with
  | noBuffer => simp [Statement, encode, descWord_zero, mask, pattern, commandWord]
  | buffer cap dst => simp [Statement, encode, descWord_zero, mask, pattern, commandWord]

theorem hash (var : Selector) (src len dst : Nat) : Statement (.hash var src len dst) := by
  have all : ∀ var : BitVec 4, commandWord false var 4 &&& 0xFFFFFF0F = 0x00000004 := by decide
  simpa [Statement, encode, descWord_zero, mask, pattern] using all var

end Sys2Proof.Laws.TableMatch
end

