-- ==== Sys2Proof/Tests/Slice0.lean ====
section
/-! SUPPORT. The model's own tests, each expected result taken from spec/ (the vectors V<n>.<m> and the
programs P<n> are 95_test_vectors.md's), and for every obligation with hypotheses a witness that meets them. -/

namespace Sys2Proof.Tests

open Sys2Proof Sys2Proof.Machine

/-! ### WellFormed refuses an ill-formed term, check by check (30_encoding.md R56, R61) -/

theorem test_wf_refuses_large_update_src : (Instr.update (2 ^ 32) 0).wf = false := by decide

theorem test_wf_refuses_large_update_len : (Instr.update 0 (2 ^ 32)).wf = false := by decide

theorem test_wf_refuses_large_finalize_cap : (Instr.finalize (.buffer (2 ^ 32) 0)).wf = false := by decide

theorem test_wf_refuses_large_finalize_dst : (Instr.finalize (.buffer 0 (2 ^ 32))).wf = false := by decide

theorem test_wf_refuses_large_hash_src : (Instr.hash 0 (2 ^ 32) 0 0).wf = false := by decide

theorem test_wf_refuses_large_hash_len : (Instr.hash 0 0 (2 ^ 32) 0).wf = false := by decide

theorem test_wf_refuses_large_hash_dst : (Instr.hash 0 0 0 (2 ^ 32)).wf = false := by decide

theorem test_wf_accepts_largest_operands :
    (Instr.init 15).wf = true ∧ (Instr.update (2 ^ 32 - 1) (2 ^ 32 - 1)).wf = true ∧
      (Instr.finalize .noBuffer).wf = true ∧ (Instr.finalize (.buffer (2 ^ 32 - 1) (2 ^ 32 - 1))).wf = true ∧
      (Instr.hash 15 (2 ^ 32 - 1) (2 ^ 32 - 1) (2 ^ 32 - 1)).wf = true := by decide

/-! ### Decoding, from words written out of the spec's encodings (30_encoding.md R57, R59, R64, R69; V5.1) -/

/-- RSV = 0, NB = 0, VAR = 5, OP = 1. -/
theorem test_decode_init : decode 0b00000000000000000000000_0_0101_0001#128 = .command (.init 5) := by decide

/-- W2 = 3, W1 = 0x100, then RSV = 0, NB = 0, VAR = 0, OP = 2. -/
theorem test_decode_update :
    decode 0x00000000_00000003_00000100_00000002#128 = .command (.update 0x100 3) := by decide

/-- W3 = 0x200, W2 = 32, then RSV = 0, NB = 0, VAR = 0, OP = 3. -/
theorem test_decode_finalize_buffer :
    decode 0x00000200_00000020_00000000_00000003#128 = .command (.finalize (.buffer 32 0x200)) := by decide

/-- RSV = 0, NB = 1, VAR = 0, OP = 3; the operand words are ignored (R58). -/
theorem test_decode_finalize_noBuffer :
    decode 0b00000000000000000000000_1_0000_0011#128 = .command (.finalize .noBuffer) ∧
      decode 0xFFFFFFFF_FFFFFFFF_FFFFFFFF_00000103#128 = .command (.finalize .noBuffer) := by decide

/-- W3 = 0x2000, W2 = 300, W1 = 0x1000, then RSV = 0, NB = 0, VAR = 1, OP = 4. -/
theorem test_decode_hash :
    decode 0x00002000_0000012C_00001000_00000014#128 = .command (.hash 1 0x1000 300 0x2000) := by decide

/-- The illegal command words of V5.1. -/
theorem test_decode_illegal :
    decode 0x101 = .illegal .noBufferFlag ∧ decode 0x012 = .illegal .variantField ∧
      decode 0x102 = .illegal .noBufferFlag ∧ decode 0x013 = .illegal .variantField ∧
      decode 0x104 = .illegal .noBufferFlag ∧ decode 0x000 = .illegal .reservedOpcode ∧
      decode 0x005 = .illegal .reservedOpcode ∧ decode 0x00F = .illegal .reservedOpcode ∧
      decode 0x201 = .illegal .reservedBits ∧ decode 0x80000002 = .illegal .reservedBits := by decide

/-- An opcode-table word is W0 alone, its operand words zero. -/
theorem test_decodeTableWord :
    decodeTableWord 32 0x00000071 = some (.init 7) ∧ decodeTableWord 32 0x00000002 = some (.update 0 0) ∧
      decodeTableWord 32 0x00000103 = some (.finalize .noBuffer) ∧
      decodeTableWord 32 0x00000094 = some (.hash 9 0 0 0) ∧ decodeTableWord 32 0x00000005 = none := by decide

/-! ### States -/

/-- Active sha3-256 without input, as `INIT sha3-256` leaves it; "abc" at 0x100 (P1). -/
def active : State :=
  { initContext ⟨256, 136, true⟩ State.reset with hm := [(0x100, 0x61), (0x101, 0x62), (0x102, 0x63)] }

/-- Active sha3-256 with `n` zero bytes staged. -/
def activeWith (n : BitVec 8) : State := { active with bufLen := n }

/-- Finalized sha3-256 (its lanes are not a digest; no rule looks at that). -/
def finalized : State := { active with fin := true }

/-- A core whose platform backs the first 512 addresses only. -/
def smallHost : State := { active with hmAdmit := [⟨0, 512⟩] }

/-- A core out of reset whose unspecified fields hold other values than the model's (R139). -/
def dirtyReset : State :=
  { State.reset with
    a := tabulate fun _ => 0xFFFFFFFFFFFFFFFF
    stg := tabulate fun _ => 0xEE
    bufLen := 200
    rate := 3
    fin := true
    pad := true }

/-- The status of an outcome. -/
def statusOf : Host.Outcome State Fault Refusal → Option Status
  | .next s => s.status
  | _ => none

/-! ### One step of each command, and the errors (V5.2) -/

/-- `INIT sha3-256` through the port gives RATE = 136, PAD = 1, BUFLEN = 0, FIN = 0, VALID = 1 (R99, P1). -/
theorem test_step_init :
    step (dirtyReset.withFetchWord 32 0x51) =
      .next { initContext ⟨256, 136, true⟩ dirtyReset with status := some .ok } ∧
    (initContext ⟨256, 136, true⟩ dirtyReset).rate = 136 ∧ (initContext ⟨256, 136, true⟩ dirtyReset).pad = true := by
  refine ⟨rfl, rfl, rfl⟩

theorem test_init_invalid_selector :
    statusOf (exec (.init 9) State.reset) = some .configurationError ∧
      statusOf (exec (.init 12) (activeWith 3)) = some .configurationError := by decide

/-- `UPDATE 0x100, 3` of P1: BUFLEN = 3, STG[0..3] = 61 62 63 00. -/
theorem test_update_stages :
    (updateContext 0x100 3 active).bufLen = 3 ∧
      staged (updateContext 0x100 3 active).stg 4 = [0x61, 0x62, 0x63, 0x00] := by decide

theorem test_update_statuses :
    statusOf (exec (.update 0x100 3) State.reset) = some .noContextError ∧
      statusOf (exec (.update 0xFFFFFFFF 2) active) = some .addressRangeError ∧
      statusOf (exec (.update 0xFFFFFFFF 1) active) = some .ok ∧
      statusOf (exec (.update 0xFFFFFFFF 0) active) = some .ok ∧
      statusOf (exec (.update 0xFFFFFFFF 2) finalized) = some .ok := by decide

theorem test_finalize_statuses :
    statusOf (exec (.finalize (.buffer 32 0x200)) State.reset) = some .noContextError ∧
      statusOf (exec (.finalize .noBuffer) State.reset) = some .noContextError ∧
      statusOf (exec (.finalize (.buffer 31 0x200)) (activeWith 3)) = some .bufferTooSmallError ∧
      statusOf (exec (.finalize (.buffer 31 0x200)) finalized) = some .bufferTooSmallError ∧
      statusOf (exec (.finalize (.buffer 32 0xFFFFFFE1)) active) = some .addressRangeError ∧
      statusOf (exec (.finalize (.buffer 31 0xFFFFFFE1)) active) = some .bufferTooSmallError := by decide

/-- V1.4: FINALIZE's digest of "abc" under sha3-256 begins 3A 98 5D A7 4F E2 25 B2. -/
theorem test_finalize_digest :
    lane (finalizeContext (updateContext 0x100 3 active)).a 0 = 0xB225E24FA75D983A := by decide +kernel

theorem test_hash_statuses :
    statusOf (exec (.hash 9 0 0 0) State.reset) = some .configurationError ∧
      statusOf (exec (.hash 5 0xFFFFFFF0 0x20 0) State.reset) = some .addressRangeError ∧
      statusOf (exec (.hash 9 0xFFFFFFF0 0x20 0) State.reset) = some .configurationError := by decide

/-- V1.1: the digest of the empty message under keccak-256 begins C5 D2 46 01 86 F7 23 3C. -/
theorem test_digest_empty_keccak256 :
    (digestOf ⟨256, 136, false⟩ []).take 8 = [0xC5, 0xD2, 0x46, 0x01, 0x86, 0xF7, 0x23, 0x3C] := by
  decide +kernel

/-! ### The engine and the adapter -/

/-- R73's example. -/
theorem test_rotl64 : rotl64 0x8000000000000001 1 = 0x0000000000000003 := by decide

/-- V2.1 and V2.2: rounds 0 and 1 from the zero state, lanes of each of the five rows. -/
theorem test_rounds :
    Machine.round zeroLanes 0 = iota zeroLanes 0 ∧ lane (iota zeroLanes 0) 0 = 1 ∧
      ([0, 1, 4, 6, 10, 15, 22, 24].map fun i => lane (Machine.round (iota zeroLanes 0) 1) i) =
        [0x8083, 0x100000000000, 0x100000008000, 0x200000200000, 0x2, 0x10000400, 0x10000000004, 0x4] := by
  decide +kernel

/-- R88's example, and back by R87. -/
theorem test_lane_bytes :
    (bytesFromLane 0xF1258F7940E1DDE7).toList = [0xE7, 0xDD, 0xE1, 0x40, 0x79, 0x8F, 0x25, 0xF1] ∧
      laneFromBytes #v[0xE7, 0xDD, 0xE1, 0x40, 0x79, 0x8F, 0x25, 0xF1] = 0xF1258F7940E1DDE7 := by decide

/-- R89's example: the padded block of "abc" XORed into the zero state. -/
theorem test_xorBlock :
    (let A := xorBlock 136 ([0x61, 0x62, 0x63, 0x06] ++ List.replicate 131 0 ++ [0x80]) zeroLanes
    lane A 0 = 0x0000000006636261 ∧ lane A 1 = 0 ∧ lane A 16 = 0x8000000000000000 ∧ lane A 17 = 0) := by
  decide +kernel

/-! ### Host memory -/

/-- Writing what an unlisted address reads as takes the entry out. -/
theorem test_memWrite_canonical :
    memWrite [(1, 0xAA), (5, 0xBB)] 4 [0x11, 0x00, 0x22] = [(1, 0xAA), (4, 0x11), (6, 0x22)] := by decide

/-! ### Witnesses: states and operands that meet the hypotheses of each obligation -/

theorem witness_DecodeEncodeRoundTrip :
    (Instr.init 15).wf = true ∧ (Instr.update (2 ^ 32 - 1) 0).wf = true ∧
      (Instr.finalize (.buffer 0 (2 ^ 32 - 1))).wf = true ∧ (Instr.finalize .noBuffer).wf = true ∧
      (Instr.hash 0 0 (2 ^ 32 - 1) (2 ^ 32 - 1)).wf = true := by decide

/-- Each clause's pattern is met, at the largest VAR, with NB both ways, and by none of the four. -/
theorem witness_DecodeByMatchAndMask :
    descWord 0xF1 0 &&& 0xFFFFFF0F = 0x00000001 ∧ descWord 0x02 0 &&& 0xFFFFFFFF = 0x00000002 ∧
      descWord 0x103 0 &&& 0xFFFFFEFF = 0x00000003 ∧ descWord 0x003 0 &&& 0xFFFFFEFF = 0x00000003 ∧
      descWord 0xF4 0 &&& 0xFFFFFF0F = 0x00000004 ∧ descWord 0x101 0 &&& 0xFFFFFF0F ≠ 0x00000001 := by decide

/-- A descriptor for each of the four kinds, at both ends of the reserved opcodes and of RSV. -/
theorem witness_IllegalDescriptorsExactly :
    (∃ why, decode 0x000 = .illegal why) ∧ (∃ why, decode 0x005 = .illegal why) ∧
      (∃ why, decode 0x00F = .illegal why) ∧ (∃ why, decode 0x201 = .illegal why) ∧
      (∃ why, decode 0x80000003 = .illegal why) ∧ (∃ why, decode 0x104 = .illegal why) ∧
      (∃ why, decode 0x012 = .illegal why) ∧ (∃ why, decode 0x1F3 = .illegal why) :=
  ⟨⟨_, rfl⟩, ⟨_, rfl⟩, ⟨_, rfl⟩, ⟨_, rfl⟩, ⟨_, rfl⟩, ⟨_, rfl⟩, ⟨_, rfl⟩, ⟨_, rfl⟩⟩

theorem witness_DecodeReadsOperandWords :
    (descWord 0xFFFFFFFF_FFFFFFFF_FFFFFFFF_000000F1 0 &&& 0xFFFFFF0F = 0x1) ∧
      (descWord 0xFFFFFFFF_FFFFFFFF_FFFFFFFF_00000002 0 = 0x002) ∧
      (descWord 0xFFFFFFFF_FFFFFFFF_FFFFFFFF_00000003 0 = 0x003) ∧
      (descWord 0xFFFFFFFF_FFFFFFFF_FFFFFFFF_00000103 0 = 0x103) ∧
      (descWord 0xFFFFFFFF_FFFFFFFF_FFFFFFFF_000000F4 0 &&& 0xFFFFFF0F = 0x4) := by decide

theorem witness_DecodedCommandKeepsItsCommandWord :
    decode 0xFFFFFFFF_FFFFFFFF_FFFFFFFF_000000F4 =
      .command (.hash 15 0xFFFFFFFF 0xFFFFFFFF 0xFFFFFFFF) := by decide

theorem witness_StoredDescriptorIsLittleEndian :
    15 < 16 ∧ nth (descBytes 0xAB000000_00000000_00000000_00000002) 15 0 = 0xAB := by decide

theorem witness_StepRunsDecodedCommand :
    ({ State.reset with port := [.issue 0x51, .issue 0x103] }).port = .issue 0x51 :: [.issue 0x103] ∧
      decode 0x51 = .command (.init 5) ∧ decodeTableWord 32 0x51 = some (.init 5) := by decide

theorem witness_StepEndsIllegalDescriptor :
    ({ active with port := [.issue 0x12] }).port = .issue 0x12 :: [] ∧
      decode 0x12 = .illegal .variantField := by decide

/-- No action; a store at the last backed address and at the first that is not. -/
theorem witness_StepIdlesOrTakesHostStore :
    active.port = [] ∧ ({ smallHost with port := [.store 511 1] }).port = .store 511 1 :: [] ∧
      smallHost.memoryOk = true ∧ admits smallHost.hmAdmit (511 : BitVec 32).toNat = true ∧
      admits smallHost.hmAdmit (512 : BitVec 32).toNat = false ∧
      admits active.hmAdmit (0xFFFFFFFF : BitVec 32).toNat = true := by decide

theorem witness_StepKeepsInvariant :
    (activeWith 135).inv = true ∧ finalized.inv = true ∧ dirtyReset.inv = true ∧
      ∃ t, step { activeWith 135 with port := [.issue 0x103] } = .next t :=
  ⟨by decide, by decide, by decide, _, rfl⟩

theorem witness_StagedBytesStayBelowRate :
    dirtyReset.valid = false ∧ ∃ s, ReachableFrom { dirtyReset with port := [.issue 0x51] } s ∧ s.valid = true :=
  ⟨rfl, _, .next .start rfl, rfl⟩

theorem witness_StepHidesUnspecifiedFields :
    State.reset.valid = false ∧ agreeButContext State.reset dirtyReset ∧ State.reset ≠ dirtyReset := by
  refine ⟨rfl, ⟨rfl, rfl, rfl, rfl, rfl⟩, fun h => ?_⟩
  have : State.reset.rate = dirtyReset.rate := congrArg State.rate h
  exact absurd this (by decide)

theorem witness_RunsHideUnspecifiedResetValues :
    ({ State.reset with port := [.issue 0x51] }).valid = false ∧
      agreeButContext { State.reset with port := [.issue 0x51] } { dirtyReset with port := [.issue 0x51] } :=
  ⟨rfl, rfl, rfl, rfl, rfl, rfl⟩

theorem witness_VariantTable : 8 ≤ (8 : Selector).toNat ∧ 8 ≤ (15 : Selector).toNat := by decide

theorem witness_InitStartsFreshContext : (7 : Selector).toNat ≤ 7 ∧ 7 < (8 : Selector).toNat := by decide

/-- One byte of room and one byte of input, the last address of the space; and a whole block. -/
theorem witness_UpdateAbsorbsClosedForm :
    (activeWith 135).contextOk = true ∧ (activeWith 135).valid = true ∧ (activeWith 135).fin = false ∧
      usable (activeWith 135) 0xFFFFFFFF 1 ∧ usable (activeWith 135) 0 136 := by decide

theorem witness_ZeroLengthUpdateChangesNothing :
    (activeWith 135).contextOk = true ∧ (activeWith 135).valid = true ∧ 0xFFFFFFFF < 2 ^ 32 := by decide

theorem witness_UpdateBelowOneBlockOnlyStages :
    (activeWith 3).contextOk = true ∧ (activeWith 3).valid = true ∧ (activeWith 3).fin = false ∧
      usable (activeWith 3) 0x100 132 ∧ (activeWith 3).bufLen.toNat + 132 < (activeWith 3).rate.toNat := by decide

/-- A Finalized context after a failed command, and one a FINALIZE has just closed. -/
theorem witness_UpdateAfterFinalizeIsNoOp :
    (∃ s, exec (.finalize (.buffer 31 0)) finalized = .next s ∧ s.status = some .bufferTooSmallError ∧
      s.valid = true ∧ s.fin = true) ∧
    ∃ t, exec (.finalize .noBuffer) active = .next t ∧ t.status = some .ok :=
  ⟨⟨_, rfl, rfl, rfl, rfl⟩, _, exec_finalize_noBuffer_next rfl, rfl⟩

/-- A split at the block boundary with an empty chunk in it, and none. -/
theorem witness_StreamingEquivalence :
    active.inv = true ∧ active.valid = true ∧ active.fin = false ∧
      (∀ c ∈ [(0x100, 3), (0x777, 0), (0x103, 133)], usable active c.1 c.2) ∧
      (∀ c ∈ [(0x100, 136)], usable active c.1 c.2) ∧
      gather active.hm [(0x100, 3), (0x777, 0), (0x103, 133)] = gather active.hm [(0x100, 136)] := by decide

/-- The buffer empty, with two bytes of room, and with one. -/
theorem witness_PadBlockBuildsPaddedBlock :
    0 < 144 ∧ 142 < 144 ∧ 143 < 144 ∧ 144 ≤ 144 ∧ 71 = 72 - 1 := by decide

/-- The smallest buffer, at the highest destination. -/
theorem witness_FinalizeActiveWritesDigest :
    (activeWith 135).inv = true ∧ (activeWith 135).valid = true ∧ (activeWith 135).fin = false ∧
      (activeWith 135).dlen ≤ 32 ∧ usable (activeWith 135) 0xFFFFFFE0 (activeWith 135).dlen := by decide

theorem witness_FinalizeFinalizedRewritesDigest :
    finalized.inv = true ∧ finalized.valid = true ∧ finalized.fin = true ∧ finalized.dlen ≤ 32 ∧
      usable finalized 0xFFFFFFE0 finalized.dlen := by decide

theorem witness_FinalizeWithoutBufferWritesNoMemory :
    (activeWith 135).contextOk = true ∧ (activeWith 135).valid = true ∧ (activeWith 135).fin = false ∧
      finalized.contextOk = true ∧ finalized.valid = true ∧ finalized.fin = true := by decide

/-- The second buffer next to the first, so that none of its bytes are named again. -/
theorem witness_FinalizeIsIdempotent :
    active.inv = true ∧
      (∃ t, exec (.finalize (.buffer 32 0x200)) active = .next t ∧ t.status = some .ok) ∧
      active.dlen ≤ 64 ∧ usable active 0x220 active.dlen ∧ 0x200 + active.dlen ≤ 0x220 :=
  ⟨by decide, ⟨_, exec_finalize_buffer_next rfl (by decide) (by decide), rfl⟩, by decide, by decide, by decide⟩

theorem witness_PaddedMessageFillsWholeBlocks : 0 < 72 := by decide

theorem witness_StreamedDigestIsSpongeFunction :
    State.reset.memoryOk = true ∧ varParams 7 = some ⟨512, 72, true⟩ ∧
      (∀ c ∈ [(0x100, 71), (0x147, 0), (0x147, 1)], usable State.reset c.1 c.2) ∧
      (⟨512, 72, true⟩ : VariantParams).dlen ≤ 64 ∧
      usable State.reset 0xFFFFFFC0 (⟨512, 72, true⟩ : VariantParams).dlen := by decide

/-- The destination overlaps the source, as in P4. -/
theorem witness_HashWritesDigestOfSource :
    dirtyReset.memoryOk = true ∧ varParams 4 = some ⟨224, 144, true⟩ ∧ usable dirtyReset 0x400 143 ∧
      usable dirtyReset 0x400 (⟨224, 144, true⟩ : VariantParams).dlen := by decide

theorem witness_HashComposesInitUpdateFinalize :
    varParams 0 = some ⟨224, 144, false⟩ ∧ usable active 0xFFFFFFFF 1 ∧
      usable active 0xFFFFFFE4 (⟨224, 144, false⟩ : VariantParams).dlen := by decide

/-- Two states with different contexts and memories, the same bytes at different addresses. -/
theorem witness_HashDependsOnMessageOnly :
    active.memoryOk = true ∧ dirtyReset.memoryOk = true ∧ varParams 1 = some ⟨256, 136, false⟩ ∧
      usable active 0x103 8 ∧ usable active 0x200 (⟨256, 136, false⟩ : VariantParams).dlen ∧
      usable dirtyReset 0x500 8 ∧ usable dirtyReset 0x500 (⟨256, 136, false⟩ : VariantParams).dlen ∧
      memRead active.hm 0x103 8 = memRead dirtyReset.hm 0x500 8 := by decide

theorem witness_FailedCommandChangesNothing :
    ∃ t, exec (.finalize (.buffer 31 0x200)) active = .next t ∧ t.status ≠ some .ok :=
  ⟨_, rfl, by decide⟩

/-- A next state for each clause. -/
theorem witness_ChecksComeInOrder :
    (decode 0 = .illegal .reservedOpcode ∧ ∃ t, runDesc 0 active = .next t) ∧
      (∃ t, exec (.init 8) active = .next t) ∧ (∃ t, exec (.update 0xFFFFFFFF 2) active = .next t) ∧
      (∃ t, exec (.finalize .noBuffer) active = .next t) ∧
      (∃ t, exec (.finalize (.buffer 31 0xFFFFFFE1)) active = .next t) ∧
      ∃ t, exec (.hash 9 0xFFFFFFF0 0x20 0) active = .next t :=
  ⟨⟨by decide, _, rfl⟩, ⟨_, rfl⟩, ⟨_, rfl⟩, ⟨_, exec_finalize_noBuffer_next rfl⟩, ⟨_, rfl⟩, _, rfl⟩

theorem witness_InvalidSelectorIsConfigurationError :
    7 < (8 : Selector).toNat ∧
      ∃ t, exec (.hash 8 0 0 0) active = .next t ∧ t.status = some .configurationError :=
  ⟨by decide, _, rfl, rfl⟩

/-- Each clause one address past the top. -/
theorem witness_RangePastTopIsAddressRangeError :
    active.valid = true ∧ active.fin = false ∧ 2 ^ 32 < 0xFFFFFFFF + 2 ∧ active.dlen ≤ 32 ∧
      2 ^ 32 < 0xFFFFFFE1 + active.dlen ∧ varParams 5 = some ⟨256, 136, true⟩ ∧
      2 ^ 32 < 0xFFFFFFE1 + (⟨256, 136, true⟩ : VariantParams).dlen ∧
      ∃ t, exec (.update 0xFFFFFFFF 2) active = .next t ∧ t.status = some .addressRangeError :=
  ⟨by decide, by decide, by decide, by decide, by decide, by decide, by decide, _, rfl, rfl⟩

theorem witness_NoContextMeansNoContextError :
    dirtyReset.valid = false ∧
      ∃ t, exec (.update 0 0) dirtyReset = .next t ∧ t.status = some .noContextError :=
  ⟨rfl, _, rfl, rfl⟩

theorem witness_SmallBufferIsBufferTooSmallError :
    active.valid = true ∧ 31 < (200 - active.rate.toNat) / 2 ∧
      ∃ t, exec (.finalize (.buffer 31 0)) finalized = .next t ∧ t.status = some .bufferTooSmallError :=
  ⟨by decide, by decide, _, rfl, rfl⟩

theorem witness_EveryCommandEnds : ∀ a : Nat, a < 2 ^ 32 → admits State.reset.hmAdmit a = true := by
  intro a ha
  simp [admits, State.reset, Region.holds, Config.addrTop]
  exact ha

/-- The last backed byte and the first that is not, for each command that touches memory. -/
theorem witness_RefusedExactlyForUnbackedRange :
    exec (.update 511 2) smallHost = .refused .unbackedAddress ∧ (∃ t, exec (.update 511 1) smallHost = .next t) ∧
      exec (.finalize (.buffer 32 481)) smallHost = .refused .unbackedAddress ∧
      exec (.hash 5 0 1 481) smallHost = .refused .unbackedAddress ∧
      exec (.hash 5 512 1 480) smallHost = .refused .unbackedAddress :=
  ⟨rfl, ⟨_, rfl⟩, rfl, rfl, rfl⟩

/-- A transition from each condition. -/
theorem witness_TransitionTable :
    (State.reset.condition = .empty ∧ ∃ t, exec (.init 5) State.reset = .next t ∧ t.status = some .ok) ∧
      (active.condition = .active ∧ ∃ t, exec (.finalize .noBuffer) active = .next t ∧ t.status = some .ok) ∧
      finalized.condition = .finalized ∧
      ∃ t, exec (.finalize (.buffer 31 0)) finalized = .next t ∧ t.status ≠ some .ok :=
  ⟨⟨by decide, _, rfl, rfl⟩, ⟨by decide, _, exec_finalize_noBuffer_next rfl, rfl⟩, by decide, _, rfl, by decide⟩

theorem witness_OnlyInitOrHashMakesAContext :
    ∃ t, step { dirtyReset with port := [.issue 0x51] } = .next t ∧ dirtyReset.valid = false ∧ t.valid = true :=
  ⟨_, rfl, rfl, rfl⟩

theorem witness_RateIsFixedForAContext :
    ∃ t, step { active with port := [.issue 0x31] } = .next t ∧ t.rate ≠ active.rate ∧ t.pad ≠ active.pad :=
  ⟨_, rfl, by decide, by decide⟩

theorem witness_CommandsKeepParameterAndPort : ∃ t, exec (.update 0x100 3) active = .next t := ⟨_, rfl⟩

/-- A next state for each clause, an error among them. -/
theorem witness_CommandsWriteOnlyTheDigestRange :
    active.memoryOk = true ∧ (∃ t, exec (.init 9) active = .next t ∧ t.status ≠ some .ok) ∧
      (∃ t, exec (.update 0x100 3) active = .next t) ∧ (∃ t, exec (.finalize .noBuffer) active = .next t) ∧
      (∃ t, exec (.finalize (.buffer 32 0xFFFFFFE0)) active = .next t) ∧
      ∃ t, exec (.hash 5 0x100 3 0xFFFFFFE0) active = .next t :=
  ⟨by decide, ⟨_, rfl, by decide⟩, ⟨_, rfl⟩, ⟨_, exec_finalize_noBuffer_next rfl⟩,
    ⟨_, exec_finalize_buffer_next rfl (by decide) (by decide)⟩,
    _, exec_hash_next (p := ⟨256, 136, true⟩) (by decide) (by decide) (by decide)⟩

/-- A memory that differs just outside the source range; a Finalized context, no context, a range one past the top,
the first invalid selector, and a source and a destination of HASH one past the top. -/
theorem witness_CommandsReadOnlyTheSourceRange :
    memRead active.hm 0x100 3 =
        memRead [(0xFF, 0x10), (0x100, 0x61), (0x101, 0x62), (0x102, 0x63), (0x103, 0x64)] 0x100 3 ∧
      finalized.fin = true ∧ dirtyReset.valid = false ∧ 2 ^ 32 < 0xFFFFFFFF + 2 ∧ 7 < (8 : Selector).toNat ∧
      2 ^ 32 < 0xFFFFFFE1 + [28, 32, 48, 64].getD ((5 : Selector).toNat % 4) 0 := by decide

/-- The same three staged bytes, with and without stale bytes after them. -/
theorem witness_StaleStagingBytesAreHidden :
    (activeWith 3).contextOk = true ∧
      (activeWith 3).context = ({ activeWith 3 with stg := stgWrite active.stg 3 [0xEE] } : State).context ∧
      (activeWith 3).stg ≠ stgWrite active.stg 3 [0xEE] := by decide +kernel

/-- A range that ends at the top of the address space. -/
theorem witness_MemWriteSetsItsRangeOnly :
    Memory.wf active.hm = true ∧ 0xFFFFFFFE + ([0x12, 0x34] : List Byte).length ≤ 2 ^ 32 := by decide

theorem witness_CanonicalMemoryIsUnique :
    ∃ m m' : Memory, m.wf = true ∧ m'.wf = true ∧ ∀ a, readByte m a = readByte m' a :=
  ⟨writeByte (writeByte [] 7 0x55) 7 0, [], by decide, by decide, fun _ => rfl⟩

theorem witness_LaneBytesAreInverse : 0 < 8 ∧ 7 < 8 := by decide

/-- The largest and the smallest rate; the last lane the block reaches and the first it does not. -/
theorem witness_XorBlockInByteView :
    legalRate 144 = true ∧ (List.replicate 144 (0 : Byte)).length = 144 ∧ legalRate 72 = true ∧
      199 < 200 ∧ 24 < 25 ∧ 144 / 8 ≤ 18 :=
  ⟨by decide, List.length_replicate, by decide, by decide, by decide, by decide⟩

theorem witness_RotationMovesBits : 0 < 64 ∧ 63 < 64 := by decide

theorem witness_StepsInMatrixCoordinates : 0 < 5 ∧ 4 < 5 := by decide

end Sys2Proof.Tests
end

section
/-! SUPPORT. The claims of 00_scope.md. -/

namespace Sys2Proof.Machine

/-- Settles O17: each row of R6's table is the formulas evaluated at its selector, and a selector with bit 3 set
names no variant. -/
theorem variantTable : Obligations.VariantTable := by
  unfold Obligations.VariantTable
  constructor
  case left =>
    simp only [List.forall_mem_cons]
    refine ⟨?keccak224, ?keccak256, ?keccak384, ?keccak512, ?sha3224, ?sha3256, ?sha3384, ?sha3512,
      List.forall_mem_nil _⟩ <;> decide
  case right =>
    intro var hvar
    exact (varParams_none_iff var).2 hvar

end Sys2Proof.Machine
end

section
/-! SUPPORT. What the commands keep of the invariant: a legal context and a canonical memory within HM_ADMIT
(10_state.md R23, R24; 20_memory.md R38; 42_sponge_commands.md R106). -/

namespace Sys2Proof.Machine

/-! ### Legal contexts -/

theorem contextOk_of_not_valid {s : State} (h : s.valid = false) : s.contextOk = true := by
  simp [contextOk_iff, h]

theorem finalizeContext_bufLen (s : State) : (finalizeContext s).bufLen = if s.fin then s.bufLen else 0 := by
  unfold finalizeContext
  split_ifs <;> rfl

theorem initContext_contextOk {var : Selector} {p : VariantParams} (hp : varParams var = some p) (s : State) :
    (initContext p s).contextOk = true := by
  have hr := (varParams_facts hp).1
  have := (legalRate_iff _).1 hr
  refine (contextOk_iff _).2 fun _ => ⟨?_, ?_, by simp⟩ <;> rw [initContext_rate, varParams_rate_toNat hp]
  · exact hr
  · rw [initContext_bufLen, show (0 : BitVec 8).toNat = 0 from rfl]
    omega

/-- UPDATE leaves less than a block staged on an Active context. -/
theorem updateContext_contextOk {s : State} (h : s.contextOk = true) (hv : s.valid = true) (hf : s.fin = false)
    (src len : Nat) : (updateContext src len s).contextOk = true := by
  obtain ⟨hr, hb, -⟩ := (contextOk_iff s).1 h hv
  refine (contextOk_iff _).2 fun _ => ⟨by simpa using hr, ?_, by simp [hf]⟩
  rw [(updateContext_absorbed s src len hr hb).bufLen, updateContext_rate]
  exact Nat.mod_lt _ (by omega)

/-- FINALIZE empties the staging buffer of an Active context; a Finalized one holds nothing already. -/
theorem finalizeContext_contextOk {s : State} (h : s.contextOk = true) : (finalizeContext s).contextOk = true := by
  rw [contextOk_iff] at h ⊢
  intro hv
  obtain ⟨hr, hb, hz⟩ := h (by simpa using hv)
  have hn : (finalizeContext s).bufLen.toNat = 0 := by
    rw [finalizeContext_bufLen]
    split_ifs with hf
    · exact hz hf
    · rfl
  rw [finalizeContext_rate, hn]
  exact ⟨hr, by omega, fun _ => rfl⟩

/-- The context HASH leaves behind is legal. -/
theorem hashContext_contextOk {var : Selector} {p : VariantParams} (hp : varParams var = some p)
    (src len : Nat) (s : State) :
    (finalizeContext (updateContext src len (initContext p s))).contextOk = true :=
  finalizeContext_contextOk (updateContext_contextOk (initContext_contextOk hp s) rfl rfl src len)

theorem exec_contextOk {i : Instr} {s t : State} (h : s.contextOk = true) (ht : exec i s = .next t) :
    t.contextOk = true := by
  cases exec_next_cases ht with
  | failed => exact h
  | init var p hp => exact initContext_contextOk hp s
  | ignored => exact h
  | update src len hv hf => exact updateContext_contextOk h hv hf src len
  | close => exact finalizeContext_contextOk h
  | write => exact finalizeContext_contextOk h
  | hash var p src len dst hp => exact hashContext_contextOk hp src len s

theorem step_contextOk {s t : State} (h : s.contextOk = true) (ht : step s = .next t) : t.contextOk = true := by
  cases step_next_cases ht with
  | idle => exact h
  | store => exact h
  | illegal => exact h
  | ran d i rest t hp hd he => exact exec_contextOk (s := { s with port := rest }) h he

/-! ### Canonical memory within HM_ADMIT -/

theorem memoryOk_congr {s t : State} (hm : t.hm = s.hm) (ha : t.hmAdmit = s.hmAdmit) :
    t.memoryOk = s.memoryOk := by
  rw [State.memoryOk, State.memoryOk, hm, ha]

/-- A store to a backed address keeps memory canonical and within HM_ADMIT. -/
theorem writeByte_memoryOk {s : State} (h : s.memoryOk = true) {addr : Nat}
    (ha : admits s.hmAdmit addr = true) (b : Byte) :
    ({ s with hm := writeByte s.hm addr b } : State).memoryOk = true := by
  obtain ⟨hwf, hcells⟩ := (memoryOk_iff s).1 h
  refine (memoryOk_iff _).2 ⟨Memory.wf_writeByte hwf (admits_lt ha) b, fun c hc => ?_⟩
  rcases mem_writeByte hc with hc | hc
  · exact hcells c hc
  · exact hc ▸ ha

/-- A digest written to a backed range keeps memory canonical and within HM_ADMIT. -/
theorem writeDigest_memoryOk {s : State} (h : s.memoryOk = true) {dst : Nat} (hu : usable s dst s.dlen) :
    (writeDigest dst s).memoryOk = true := by
  obtain ⟨htop, hbacked⟩ := hu
  obtain ⟨hwf, hcells⟩ := (memoryOk_iff s).1 h
  refine (memoryOk_iff _).2 ⟨Memory.wf_memWrite hwf _ _ (by simpa using htop), fun c hc => ?_⟩
  rcases mem_memWrite hc with hc | ⟨hlo, hhi⟩
  · exact hcells c hc
  · rw [length_extract] at hhi
    have := (backed_iff _ _ _).1 hbacked (c.1 - dst) (by omega)
    rwa [Nat.add_sub_cancel' hlo] at this

theorem updateContext_dlen (src len : Nat) (s : State) : (updateContext src len s).dlen = s.dlen := by
  simp [State.dlen]

theorem exec_memoryOk {i : Instr} {s t : State} (h : s.memoryOk = true) (ht : exec i s = .next t) :
    t.memoryOk = true := by
  cases exec_next_cases ht with
  | failed => exact h
  | init => exact h
  | ignored => exact h
  | update src len => exact (memoryOk_congr (by simp) (by simp)).trans h
  | close => exact (memoryOk_congr (by simp) (by simp)).trans h
  | write cap dst _ _ hr =>
    refine writeDigest_memoryOk ((memoryOk_congr (by simp) (by simp)).trans h) ?_
    simpa [usable] using hr
  | hash var p src len dst hp _ hd =>
    refine writeDigest_memoryOk ((memoryOk_congr (by simp) (by simp)).trans h) ?_
    simpa [usable, updateContext_dlen, initContext_dlen hp] using hd

theorem step_memoryOk {s t : State} (h : s.memoryOk = true) (ht : step s = .next t) : t.memoryOk = true := by
  cases step_next_cases ht with
  | idle => exact h
  | store addr b rest hp ha => exact writeByte_memoryOk h ha b
  | illegal => exact h
  | ran d i rest t hp hd he => exact exec_memoryOk (s := { s with port := rest }) h he

/-! ### Runs -/

/-- What holds at the start and is kept by every step holds of every state a run passes through. -/
theorem ReachableFrom.induct_step {P : State → Prop} {s₀ s : State} (h : ReachableFrom s₀ s) (h₀ : P s₀)
    (hstep : ∀ s t, P s → step s = .next t → P t) : P s := by
  induction h with
  | start => exact h₀
  | next _ ht ih => exact hstep _ _ ih ht

end Sys2Proof.Machine
end

section
/-! SUPPORT. Two runs side by side: when two states that differ in fields a command does not read have outcomes
of the same kind (10_state.md R21, R30). -/

namespace Sys2Proof.Machine

/-! ### Outcomes of the same kind -/

section
variable {R Q : State → State → Prop} {s s' : State}

theorem sameOutcome_refl (hR : ∀ t, R t t) (o : Host.Outcome State Fault Refusal) : sameOutcome R o o := by
  cases o with
  | next t => exact hR t
  | fault => rfl
  | refused => rfl

/-- Outcomes of the same kind: two related next states, or one refusal; a fault does not exist. -/
theorem sameOutcome_cases {o o' : Host.Outcome State Fault Refusal} (h : sameOutcome R o o') :
    (∃ t t', o = .next t ∧ o' = .next t' ∧ R t t') ∨ ∃ r, o = .refused r ∧ o' = .refused r := by
  match o, o', h with
  | .next t, .next t', h => exact .inl ⟨t, t', rfl, rfl, h⟩
  | .refused r, .refused _, rfl => exact .inr ⟨r, rfl, rfl⟩

theorem sameOutcome_execInit (var : Selector)
    (herr : ∀ e, R { s with status := some e } { s' with status := some e })
    (hinit : ∀ p, varParams var = some p →
      R { initContext p s with status := some .ok } { initContext p s' with status := some .ok }) :
    sameOutcome R (execInit var s) (execInit var s') := by
  unfold execInit
  cases hp : varParams var with
  | none => exact herr _
  | some p => exact hinit p hp

/-- HASH reads the old state through HM_ADMIT and through what INIT leaves of it. -/
theorem sameOutcome_execHash (var : Selector) (src len dst : Nat) (hadm : s.hmAdmit = s'.hmAdmit)
    (herr : ∀ e, R { s with status := some e } { s' with status := some e })
    (hhash : ∀ p, varParams var = some p →
      R { writeDigest dst (finalizeContext (updateContext src len (initContext p s))) with status := some .ok }
        { writeDigest dst (finalizeContext (updateContext src len (initContext p s'))) with status := some .ok }) :
    sameOutcome R (execHash var src len dst s) (execHash var src len dst s') := by
  unfold execHash
  rw [← hadm]
  cases hp : varParams var with
  | none => exact herr _
  | some p =>
    dsimp only
    split_ifs
    · exact herr _
    · exact hhash p hp
    · rfl

/-- A step reads the port and HM_ADMIT; the rest is what a command reads. -/
theorem sameOutcome_step (hport : s.port = s'.port) (hadm : s.hmAdmit = s'.hmAdmit)
    (hidle : R { s with status := none } { s' with status := none })
    (hstore : ∀ addr b rest, R { s with port := rest, hm := writeByte s.hm addr b, status := none }
      { s' with port := rest, hm := writeByte s'.hm addr b, status := none })
    (hillegal : ∀ rest, R { s with port := rest, status := some .illegalCommandError }
      { s' with port := rest, status := some .illegalCommandError })
    (hexec : ∀ i rest, sameOutcome R (exec i { s with port := rest }) (exec i { s' with port := rest })) :
    sameOutcome R (step s) (step s') := by
  unfold step
  rw [← hport]
  match s.port with
  | [] => exact hidle
  | .store addr b :: rest =>
    have hadm' : admits s'.hmAdmit addr.toNat = admits s.hmAdmit addr.toNat := by rw [hadm]
    simp only [takeAction, hostStore, hadm']
    split_ifs
    · exact hstore addr.toNat b rest
    · rfl
  | .issue d :: rest =>
    simp only [takeAction, runDesc]
    cases decode d with
    | command i => exact hexec i rest
    | illegal why => exact hillegal rest

theorem core_step : core.step = step := rfl

/-- Two runs are alike when their first steps are and the rest of the runs is. -/
theorem sameOutcome_run_succ (k : Nat) (hstep : sameOutcome Q (step s) (step s'))
    (hrest : ∀ t t', Q t t' → sameOutcome R (core.run k t) (core.run k t')) :
    sameOutcome R (core.run (k + 1) s) (core.run (k + 1) s') := by
  rcases sameOutcome_cases hstep with ⟨t, t', hs, hs', hQ⟩ | ⟨r, hs, hs'⟩
  · simpa only [Host.Core.run, core_step, hs, hs'] using hrest t t' hQ
  · simp only [Host.Core.run, core_step, hs, hs']
    rfl

end

/-! ### The fields that reset leaves unspecified (R30, R139) -/

/-- The states are equal, or neither holds a context and they differ only in the fields R139 leaves
unspecified. -/
def sameUntilContext (t t' : State) : Prop := t = t' ∨ (t.valid = false ∧ agreeButContext t t')

/-- INIT overwrites every field that may differ. -/
theorem agreeButContext.initContext_eq {s s' : State} (h : agreeButContext s s') (p : VariantParams) :
    initContext p s = initContext p s' := by
  obtain ⟨-, hm, hadm, hport, hst⟩ := h
  apply state_ext <;> simp [hm, hadm, hport, hst]

theorem exec_update_noContext {s : State} (src len : Nat) (hv : s.valid = false) :
    exec (.update src len) s = raise .noContextError s := if_pos hv

theorem exec_finalize_noContext {s : State} (out : OutBuffer) (hv : s.valid = false) :
    exec (.finalize out) s = raise .noContextError s := if_pos hv

/-- Without a context UPDATE and FINALIZE end with an error, and INIT and HASH start from INIT's fields. -/
theorem agreeButContext.exec_alike {s s' : State} (h : agreeButContext s s') (hv : s.valid = false) (i : Instr) :
    sameOutcome sameUntilContext (exec i s) (exec i s') := by
  have hinit := h.initContext_eq
  obtain ⟨hvalid, hm, hadm, hport, -⟩ := h
  have herr : ∀ e, sameUntilContext { s with status := some e } { s' with status := some e } :=
    fun e => .inr ⟨hv, hvalid, hm, hadm, hport, rfl⟩
  cases i with
  | init var => exact sameOutcome_execInit var herr fun p _ => .inl (by rw [hinit])
  | update src len =>
    rw [exec_update_noContext src len hv, exec_update_noContext src len (hvalid ▸ hv)]
    exact herr _
  | finalize out =>
    rw [exec_finalize_noContext out hv, exec_finalize_noContext out (hvalid ▸ hv)]
    exact herr _
  | hash var src len dst => exact sameOutcome_execHash var src len dst hadm herr fun p _ => .inl (by rw [hinit])

theorem agreeButContext.step_alike {s s' : State} (h : agreeButContext s s') (hv : s.valid = false) :
    sameOutcome sameUntilContext (step s) (step s') := by
  obtain ⟨hvalid, hm, hadm, hport, hst⟩ := h
  refine sameOutcome_step hport hadm ?idle ?store ?illegal ?exec
  case idle => exact .inr ⟨hv, hvalid, hm, hadm, hport, rfl⟩
  case store => exact fun addr b rest => .inr ⟨hv, hvalid, by rw [hm], hadm, rfl, rfl⟩
  case illegal => exact fun rest => .inr ⟨hv, hvalid, hm, hadm, rfl, rfl⟩
  case exec =>
    exact fun i rest => agreeButContext.exec_alike (s := { s with port := rest }) (s' := { s' with port := rest })
      ⟨hvalid, hm, hadm, rfl, hst⟩ hv i

/-- Once a step has made the states equal the runs are one run; until then the step lemma applies again. -/
theorem agreeButContext.run_alike {s s' : State} (h : agreeButContext s s') (hv : s.valid = false) (k : Nat) :
    sameOutcome sameUntilContext (core.run k s) (core.run k s') := by
  induction k generalizing s s' with
  | zero => exact .inr ⟨hv, h⟩
  | succ k ih =>
    refine sameOutcome_run_succ k (h.step_alike hv) fun t t' ht => ?_
    rcases ht with rfl | ⟨hvt, ht⟩
    · exact sameOutcome_refl (fun _ => .inl rfl) _
    · exact ih ht hvt

/-! ### The stale bytes of the staging buffer (R21) -/

/-- The states agree on the context, host memory, HM_ADMIT and the port: on all but stale bytes of STG and the
status. -/
structure SameView (s s' : State) : Prop where
  context : s.context = s'.context
  hm : s.hm = s'.hm
  hmAdmit : s.hmAdmit = s'.hmAdmit
  port : s.port = s'.port

/-- The states agree as in `SameView`, and on the status. -/
def seenAlike (t t' : State) : Prop :=
  t.context = t'.context ∧ t.hm = t'.hm ∧ t.hmAdmit = t'.hmAdmit ∧ t.port = t'.port ∧ t.status = t'.status

theorem context_eq_iff (s s' : State) :
    s.context = s'.context ↔
      s.a = s'.a ∧ staged s.stg s.bufLen.toNat = staged s'.stg s'.bufLen.toNat ∧ s.bufLen = s'.bufLen ∧
        s.rate = s'.rate ∧ s.fin = s'.fin ∧ s.pad = s'.pad ∧ s.valid = s'.valid := by
  simp [State.context]

/-- The invariant on contexts does not look at stale bytes. -/
theorem contextOk_congr {s s' : State} (h : s.context = s'.context) : s.contextOk = s'.contextOk := by
  obtain ⟨-, -, hn, hr, hf, -, hv⟩ := (context_eq_iff s s').1 h
  rw [State.contextOk, State.contextOk, hn, hr, hf, hv]

namespace SameView

variable {s s' : State}

/-- Ending a command with one status leaves alike states alike. -/
theorem ended (h : SameView s s') (st : Option Status) :
    seenAlike { s with status := st } { s' with status := st } :=
  ⟨h.context, h.hm, h.hmAdmit, h.port, rfl⟩

theorem dlen (h : SameView s s') : s.dlen = s'.dlen := by
  obtain ⟨-, -, -, hr, -⟩ := (context_eq_iff s s').1 h.context
  rw [State.dlen, State.dlen, hr]

theorem initContext_alike (h : SameView s s') (p : VariantParams) :
    SameView (initContext p s) (initContext p s') :=
  ⟨rfl, h.hm, h.hmAdmit, h.port⟩

/-- UPDATE's effect is a function of the staged bytes and the input (R103). -/
theorem updateContext_alike (h : SameView s s') (hok : s.contextOk = true) (hv : s.valid = true) (src len : Nat) :
    SameView (updateContext src len s) (updateContext src len s') := by
  obtain ⟨hr, hb, -⟩ := (contextOk_iff s).1 hok hv
  obtain ⟨ha, hin, hn, hrate, hfin, hpad, hvalid⟩ := (context_eq_iff s s').1 h.context
  have u := updateContext_absorbed s src len hr hb
  have u' := updateContext_absorbed s' src len (hrate ▸ hr) (hn ▸ hrate ▸ hb)
  rw [← hin, ← h.hm] at u'
  refine ⟨(context_eq_iff _ _).2 ⟨?a, ?staged, ?bufLen, ?_, ?_, ?_, ?_⟩, ?_, ?_, ?_⟩
  case a => rw [u.a, u'.a, ha, hrate]
  case staged => rw [u.staged, u'.staged, hrate]
  case bufLen => exact BitVec.eq_of_toNat_eq (by rw [u.bufLen, u'.bufLen, hrate])
  all_goals simp [hrate, hfin, hpad, hvalid, h.hm, h.hmAdmit, h.port]

/-- FINALIZE pads the staged bytes and leaves none staged (R104, R105). -/
theorem finalizeContext_alike (h : SameView s s') (hok : s.contextOk = true) (hv : s.valid = true) :
    SameView (finalizeContext s) (finalizeContext s') := by
  obtain ⟨hr, hb, -⟩ := (contextOk_iff s).1 hok hv
  obtain ⟨ha, hin, hn, hrate, hfin, hpad, hvalid⟩ := (context_eq_iff s s').1 h.context
  cases hf : s.fin with
  | true => rwa [finalizeContext_of_fin s hf, finalizeContext_of_fin s' (hfin ▸ hf)]
  | false =>
    rw [finalizeContext_active hr hb hf,
      finalizeContext_active (s := s') (hrate ▸ hr) (hn ▸ hrate ▸ hb) (hfin ▸ hf)]
    refine ⟨(context_eq_iff _ _).2 ⟨?a, ?staged, rfl, hrate, rfl, hpad, hvalid⟩, h.hm, h.hmAdmit, h.port⟩
    case a => simp only [ha, hin, hrate, hpad]
    case staged => exact (staged_zero _).trans (staged_zero _).symm

theorem writeDigest_alike (h : SameView s s') (dst : Nat) : SameView (writeDigest dst s) (writeDigest dst s') := by
  obtain ⟨ha, -⟩ := (context_eq_iff s s').1 h.context
  exact ⟨h.context, by simp only [writeDigest_hm, h.hm, ha, h.dlen], h.hmAdmit, h.port⟩

/-! The checks of the commands read VALID, FIN, RATE and HM_ADMIT, on which the states agree. -/

theorem execUpdate_alike (h : SameView s s') (hok : s.contextOk = true) (src len : Nat) :
    sameOutcome seenAlike (execUpdate src len s) (execUpdate src len s') := by
  obtain ⟨-, -, -, -, hfin, -, hvalid⟩ := (context_eq_iff s s').1 h.context
  unfold execUpdate
  rw [← hvalid, ← hfin, ← h.hmAdmit]
  split_ifs with hv hf
  · exact h.ended _
  · exact h.ended _
  · exact h.ended _
  · exact (h.updateContext_alike hok (by simpa using hv) src len).ended _
  · rfl

theorem execFinalize_alike (h : SameView s s') (hok : s.contextOk = true) (out : OutBuffer) :
    sameOutcome seenAlike (execFinalize out s) (execFinalize out s') := by
  obtain ⟨-, -, -, -, -, -, hvalid⟩ := (context_eq_iff s s').1 h.context
  unfold execFinalize
  rw [← hvalid, ← h.hmAdmit, ← h.dlen]
  split_ifs with hv
  · exact h.ended _
  · have hclosed := h.finalizeContext_alike hok (by simpa using hv)
    cases out with
    | noBuffer => exact hclosed.ended _
    | buffer cap dst =>
      dsimp only
      split_ifs
      · exact h.ended _
      · exact h.ended _
      · exact (hclosed.writeDigest_alike dst).ended _
      · rfl

/-- INIT makes the contexts equal; UPDATE and FINALIZE keep them alike. -/
theorem execHash_alike (h : SameView s s') (var : Selector) (src len dst : Nat) :
    sameOutcome seenAlike (execHash var src len dst s) (execHash var src len dst s') := by
  refine sameOutcome_execHash var src len dst h.hmAdmit (fun e => h.ended _) fun p hp => ?_
  have hok := initContext_contextOk hp s
  have hstaged := (h.initContext_alike p).updateContext_alike hok rfl src len
  have hclosed := hstaged.finalizeContext_alike (updateContext_contextOk hok rfl rfl src len) (by simp)
  exact (hclosed.writeDigest_alike dst).ended _

theorem exec_alike (h : SameView s s') (hok : s.contextOk = true) (i : Instr) :
    sameOutcome seenAlike (exec i s) (exec i s') := by
  cases i with
  | init var => exact sameOutcome_execInit var (fun e => h.ended _) fun p _ => (h.initContext_alike p).ended _
  | update src len => exact h.execUpdate_alike hok src len
  | finalize out => exact h.execFinalize_alike hok out
  | hash var src len dst => exact h.execHash_alike var src len dst

theorem step_alike (h : SameView s s') (hok : s.contextOk = true) : sameOutcome seenAlike (step s) (step s') := by
  refine sameOutcome_step h.port h.hmAdmit ?idle ?store ?illegal ?exec
  case idle => exact h.ended none
  case store => exact fun addr b rest => ⟨h.context, by rw [h.hm], h.hmAdmit, rfl, rfl⟩
  case illegal => exact fun rest => ⟨h.context, h.hm, h.hmAdmit, rfl, rfl⟩
  case exec =>
    exact fun i rest => SameView.exec_alike (s := { s with port := rest }) (s' := { s' with port := rest })
      ⟨h.context, h.hm, h.hmAdmit, rfl⟩ hok i

end SameView

end Sys2Proof.Machine
end

section
/-! SUPPORT. The one way to a new context (10_state.md R25, R30). -/

namespace Sys2Proof.Machine

/-- VALID, RATE and PAD of `t` are those of `s`. -/
def sameParameters (s t : State) : Prop := t.valid = s.valid ∧ t.rate = s.rate ∧ t.pad = s.pad

/-- A command other than an INIT or a HASH that ends OK keeps VALID, RATE and PAD. -/
theorem exec_starts_context {i : Instr} {s t : State} (ht : exec i s = .next t) :
    sameParameters s t ∨
      (t.valid = true ∧ t.status = some .ok ∧
        ((∃ var, i = .init var) ∨ ∃ var src len dst, i = .hash var src len dst)) := by
  cases exec_next_cases ht with
  | failed => exact .inl ⟨rfl, rfl, rfl⟩
  | init var => exact .inr ⟨rfl, rfl, .inl ⟨var, rfl⟩⟩
  | ignored => exact .inl ⟨rfl, rfl, rfl⟩
  | update => exact .inl ⟨by simp, by simp, by simp⟩
  | close => exact .inl ⟨by simp, by simp, by simp⟩
  | write => exact .inl ⟨by simp, by simp, by simp⟩
  | hash var p src len dst => exact .inr ⟨by simp, rfl, .inr ⟨var, src, len, dst, rfl⟩⟩

/-- A step keeps VALID, RATE and PAD, or it ran an INIT or a HASH that ended OK. -/
theorem step_starts_context {s t : State} (ht : step s = .next t) :
    sameParameters s t ∨
      (t.valid = true ∧ ∃ d rest, s.port = .issue d :: rest ∧ t.status = some .ok ∧
        ((∃ var, decode d = .command (.init var)) ∨
          ∃ var src len dst, decode d = .command (.hash var src len dst))) := by
  cases step_next_cases ht with
  | idle => exact .inl ⟨rfl, rfl, rfl⟩
  | store => exact .inl ⟨rfl, rfl, rfl⟩
  | illegal => exact .inl ⟨rfl, rfl, rfl⟩
  | ran d i rest t hp hd he =>
    rcases exec_starts_context he with h | ⟨hv, hst, hi⟩
    · exact .inl h
    · refine .inr ⟨hv, d, rest, hp, hst, hi.imp ?_ ?_⟩
      · rintro ⟨var, rfl⟩
        exact ⟨var, hd⟩
      · rintro ⟨var, src, len, dst, rfl⟩
        exact ⟨var, src, len, dst, hd⟩

end Sys2Proof.Machine
end

section
/-! SUPPORT. The steps of the permutation by column and row (10_state.md R16; 40_permutation_engine.md R76 to
R83). -/

namespace Sys2Proof.Machine

section
variable (A : Lanes) (x y : Nat)

/-- The parity of column x, row by row. -/
theorem nth_columnParity_laneAt (hx : x < 5) :
    nth (columnParity A) x 0 = laneAt A x 0 ^^^ laneAt A x 1 ^^^ laneAt A x 2 ^^^ laneAt A x 3 ^^^ laneAt A x 4 :=
  nth_columnParity A x hx

theorem laneAt_theta (hx : x < 5) (hy : y < 5) :
    laneAt (theta A) x y = laneAt A x y ^^^ nth (diffusion (columnParity A)) x 0 := by
  rw [laneAt, lane_theta A _ (by omega), show (x + 5 * y) % 5 = x by omega, laneAt]

theorem laneAt_chi (hx : x < 5) (hy : y < 5) :
    laneAt (chi A) x y =
      laneAt A x y ^^^ (~~~ laneAt A ((x + 1) % 5) y &&& laneAt A ((x + 2) % 5) y) := by
  rw [laneAt, lane_chi A _ (by omega), show (x + 5 * y) % 5 = x by omega, show (x + 5 * y) / 5 = y by omega]
  rfl

theorem nth_piTarget (hx : x < 5) (hy : y < 5) :
    nth piTarget (x + 5 * y) 0 = y + 5 * ((2 * x + 3 * y) % 5) := by
  have table : ∀ x < 5, ∀ y < 5, nth piTarget (x + 5 * y) 0 = y + 5 * ((2 * x + 3 * y) % 5) := by decide
  exact table x hx y hy

/-- PI brings the lane of (x, y) to where PISRC fetches it from. -/
theorem laneAt_pi (hx : x < 5) (hy : y < 5) : laneAt (pi A) y ((2 * x + 3 * y) % 5) = laneAt A x y := by
  rw [laneAt, lane_pi A _ (by omega), ← nth_piTarget x y hx hy, piSource_piTarget _ (by omega), laneAt]

theorem laneAt_iota (r : Nat) (hx : x < 5) (hy : y < 5) :
    laneAt (iota A r) x y =
      if x = 0 ∧ y = 0 then laneAt A x y ^^^ nth roundConstants r 0 else laneAt A x y := by
  rw [laneAt, lane_iota A r _ (by omega), laneAt]
  by_cases h : x = 0 ∧ y = 0
  · obtain ⟨rfl, rfl⟩ := h
    rfl
  · rw [if_neg h, if_neg (by omega)]

end

end Sys2Proof.Machine
end

section
/-! SUPPORT. The claims of 10_state.md. -/

namespace Sys2Proof.Machine

/-- Settles O13: the two halves of the invariant are kept apart from each other. -/
theorem stepKeepsInvariant : Obligations.StepKeepsInvariant := by
  intro s t hs ht
  obtain ⟨hc, hm⟩ := (inv_iff s).1 hs
  exact (inv_iff t).2 ⟨step_contextOk hc ht, step_memoryOk hm ht⟩

/-- Settles O14: a state without a context has a legal one vacuously, every step keeps it legal, and a legal
context has BUFLEN < RATE <= 144. -/
theorem stagedBytesStayBelowRate : Obligations.StagedBytesStayBelowRate := by
  intro s₀ s h₀ hreach hv
  have hok : s.contextOk = true :=
    hreach.induct_step (P := fun s => s.contextOk = true) (contextOk_of_not_valid h₀) fun _ _ => step_contextOk
  obtain ⟨hr, hb, -⟩ := (contextOk_iff s).1 hok hv
  have := (legalRate_iff _).1 hr
  omega

/-- Settles O16, by induction on the length of the run. -/
theorem runsHideUnspecifiedResetValues : Obligations.RunsHideUnspecifiedResetValues :=
  fun k _ _ hv h => h.run_alike hv k

/-- Settles O50: what UPDATE and FINALIZE make of a legal context is a function of its staged bytes. -/
theorem staleStagingBytesAreHidden : Obligations.StaleStagingBytesAreHidden :=
  fun _ _ hok hc hm hadm hport => SameView.step_alike ⟨hc, hm, hadm, hport⟩ hok

/-- Settles O15: without a context no command reads the unspecified fields, and INIT overwrites them. -/
theorem stepHidesUnspecifiedFields : Obligations.StepHidesUnspecifiedFields :=
  fun _ _ hv h => h.step_alike hv

/-- Settles O45, by the one way to a new context. -/
theorem onlyInitOrHashMakesAContext : Obligations.OnlyInitOrHashMakesAContext := by
  intro s t ht
  rcases step_starts_context ht with ⟨hvalid, -, -⟩ | ⟨hv, hran⟩
  · refine ⟨fun hv => hvalid.trans hv, fun h0 h1 => ?_⟩
    rw [hvalid, h0] at h1
    cases h1
  · exact ⟨fun _ => hv, fun _ _ => hran⟩

/-- Settles O46, by the one way to a new context. -/
theorem rateIsFixedForAContext : Obligations.RateIsFixedForAContext := by
  intro s t ht hne
  rcases step_starts_context ht with ⟨-, hrate, hpad⟩ | ⟨-, hran⟩
  · exact absurd hne (by simp [hrate, hpad])
  · exact hran

/-- Settles O56: lane i is column i mod 5 and row i div 5. -/
theorem stepsInMatrixCoordinates : Obligations.StepsInMatrixCoordinates := by
  intro A parity x y hx hy
  have hparity : ∀ c, c < 5 → nth (columnParity A) c 0 = parity c := nth_columnParity_laneAt A
  refine ⟨?theta, ?rho, laneAt_pi A x y hx hy, laneAt_chi A x y hx hy, fun r => laneAt_iota A x y r hx hy⟩
  case theta =>
    rw [laneAt_theta A x y hx hy, nth_diffusion _ x hx, ← BitVec.xor_assoc, hparity _ (by omega),
      hparity _ (by omega)]
  case rho => exact lane_rho A _ (by omega)

/-- Settles O57: the tables are finite, so each formula is evaluated at every entry. -/
theorem tablesFollowTheirFormulas : Obligations.TablesFollowTheirFormulas := by
  refine ⟨?roundConstants, rfl, ?rho, fun x hx y hy => nth_piTarget x y hx hy, piSource_piTarget⟩
  case roundConstants => decide
  case rho => decide

end Sys2Proof.Machine
end

section
/-! SUPPORT. Host memory as the bytes it reads as: a canonical memory is known by them, and two memories that read
alike in a range read alike in every part of it (20_memory.md R38, R39). -/

namespace Sys2Proof.Machine

/-! ### A canonical memory is known by its bytes -/

/-- A byte that differs from an unlisted one stands at or above the bound of the canonical form. -/
theorem le_of_readByte_ne {lo k : Nat} {m : Memory} (h : Memory.wfFrom lo m = true)
    (hk : readByte m k ≠ Config.unlistedByte) : lo ≤ k := by
  by_contra hlt
  exact hk (readByte_of_lt h (by omega))

theorem readByte_cons_self (a : Nat) (b : Byte) (rest : Memory) : readByte ((a, b) :: rest) a = b := if_pos rfl

theorem readByte_cons_of_ne {a k : Nat} (h : a ≠ k) (b : Byte) (rest : Memory) :
    readByte ((a, b) :: rest) k = readByte rest k := if_neg h

/-- The lowest entry of a canonical memory is not below a bound of one that reads alike. -/
theorem Memory.wfFrom_le_head {lo lo' a : Nat} {b : Byte} {rest m : Memory}
    (h : Memory.wfFrom lo ((a, b) :: rest) = true) (h' : Memory.wfFrom lo' m = true)
    (hread : readByte m a = b) : lo' ≤ a := by
  obtain ⟨-, -, hb, -⟩ := (Memory.wfFrom_cons_iff _ _ _ _).1 h
  exact le_of_readByte_ne h' (hread ▸ hb)

/-- Equal lowest entries taken away, canonical memories that read alike still do. -/
theorem readByte_tail_congr {a : Nat} {b : Byte} {rest rest' : Memory}
    (h : Memory.wfFrom (a + 1) rest = true) (h' : Memory.wfFrom (a + 1) rest' = true)
    (hread : ∀ k, readByte ((a, b) :: rest) k = readByte ((a, b) :: rest') k) (k : Nat) :
    readByte rest k = readByte rest' k := by
  by_cases hk : a = k
  · rw [readByte_of_lt h (by omega), readByte_of_lt h' (by omega)]
  · simpa only [readByte_cons_of_ne hk] using hread k

/-- Canonical memories that read alike are equal, by induction on their entries. -/
theorem Memory.wfFrom_ext {lo : Nat} {m m' : Memory} (h : Memory.wfFrom lo m = true)
    (h' : Memory.wfFrom lo m' = true) (hread : ∀ k, readByte m k = readByte m' k) : m = m' := by
  induction m generalizing lo m' with
  | nil =>
    cases m' with
    | nil => rfl
    | cons c' rest' =>
      obtain ⟨-, -, hb', -⟩ := (Memory.wfFrom_cons_iff _ _ _ _).1 h'
      exact absurd ((readByte_cons_self c'.1 c'.2 rest').symm.trans (hread c'.1).symm) hb'
  | cons c rest ih =>
    cases m' with
    | nil =>
      obtain ⟨-, -, hb, -⟩ := (Memory.wfFrom_cons_iff _ _ _ _).1 h
      exact absurd ((readByte_cons_self c.1 c.2 rest).symm.trans (hread c.1)) hb
    | cons c' rest' =>
      obtain ⟨a, b⟩ := c
      obtain ⟨a', b'⟩ := c'
      obtain ⟨-, ha, hb, ht⟩ := (Memory.wfFrom_cons_iff _ _ _ _).1 h
      obtain ⟨-, ha', hb', ht'⟩ := (Memory.wfFrom_cons_iff _ _ _ _).1 h'
      have hle : a' ≤ a := Memory.wfFrom_le_head h ((Memory.wfFrom_cons_iff a' _ _ _).2 ⟨le_rfl, ha', hb', ht'⟩)
        ((hread a).symm.trans (readByte_cons_self a b rest))
      have hge : a ≤ a' := Memory.wfFrom_le_head h' ((Memory.wfFrom_cons_iff a _ _ _).2 ⟨le_rfl, ha, hb, ht⟩)
        ((hread a').trans (readByte_cons_self a' b' rest'))
      obtain rfl : a = a' := by omega
      obtain rfl : b = b' := by simpa only [readByte_cons_self] using hread a
      rw [ih ht ht' (readByte_tail_congr ht ht' hread)]

/-! ### Parts of a byte range -/

/-- Memories that read alike in a range read alike in every part of it. -/
theorem memRead_part_congr {m m' : Memory} {addr n : Nat} (h : memRead m addr n = memRead m' addr n) {d k : Nat}
    (hdk : d + k ≤ n) : memRead m (addr + d) k = memRead m' (addr + d) k := by
  rw [← take_drop_memRead m addr n d k hdk, h, take_drop_memRead m' addr n d k hdk]

theorem memRead_prefix_congr {m m' : Memory} {addr n : Nat} (h : memRead m addr n = memRead m' addr n) {k : Nat}
    (hk : k ≤ n) : memRead m addr k = memRead m' addr k :=
  memRead_part_congr h (d := 0) (by omega)

/-! ### Ranges that are not backed -/

theorem backed_eq_false_iff (regions : List Region) (addr n : Nat) :
    backed regions addr n = false ↔ ∃ k, k < n ∧ admits regions (addr + k) = false := by
  rw [← Bool.not_eq_true, backed_iff]
  push Not
  simp only [ne_eq, Bool.not_eq_true]

end Sys2Proof.Machine
end

section
/-! SUPPORT. The ranges the commands touch: where each is refused, what it writes and what it reads
(20_memory.md R43, R44, R45). -/

namespace Sys2Proof.Machine

/-! ### Conditions -/

theorem condition_active_iff (s : State) : s.condition = .active ↔ s.valid = true ∧ s.fin = false := by
  unfold State.condition
  cases s.valid <;> cases s.fin <;> simp

theorem condition_ne_empty_iff (s : State) : s.condition ≠ .empty ↔ s.valid = true := by
  unfold State.condition
  cases s.valid <;> cases s.fin <;> simp

/-- No legal context has a digest of less than 28 bytes (R28). -/
theorem dlen_ge_of_legalRate {s : State} (h : legalRate s.rate.toNat = true) : 28 ≤ s.dlen := by
  unfold State.dlen digestLen Config.stateBytes
  rcases (legalRate_iff _).1 h with h | h | h | h <;> rw [h] <;> decide

/-- The digest length of a valid selector, by its size field (R60). -/
theorem varParams_dlen {var : Selector} {p : VariantParams} (h : varParams var = some p) :
    p.dlen = [28, 32, 48, 64].getD (var.toNat % 4) 0 := by
  have all : ∀ v : BitVec 4, ∀ q ∈ varParams v, q.dlen = [28, 32, 48, 64].getD (v.toNat % 4) 0 := by decide
  exact all var p h

/-! ### Empty input -/

/-- UPDATE's effect without input: nothing is absorbed and nothing staged (R54, R102 (a)). -/
theorem updateContext_zero_length {s : State} (hb : s.bufLen.toNat < s.rate.toNat) (src : Nat) :
    updateContext src 0 s = s := by
  have hn : BitVec.ofNat 8 s.bufLen.toNat = s.bufLen := by simp
  unfold updateContext
  dsimp only
  split_ifs with hz hlt
  · rw [hz] at hn
    simp [absorbInput, absorbFrom, hn]
  · simp
  · omega

/-! ### Refusals -/

@[simp] theorem raise_ne_refused (e : Status) (s : State) (r : Refusal) : raise e s ≠ .refused r := nofun

@[simp] theorem complete_ne_refused (s : State) (r : Refusal) : complete s ≠ .refused r := nofun

theorem execInit_ne_refused (var : Selector) (s : State) (r : Refusal) : execInit var s ≠ .refused r := by
  rcases execInit_cases var s with ⟨-, e⟩ | ⟨p, -, e⟩ <;> rw [e]
  · exact raise_ne_refused _ _ _
  · exact complete_ne_refused _ _

theorem execFinalize_noBuffer_ne_refused (s : State) (r : Refusal) : execFinalize .noBuffer s ≠ .refused r := by
  rcases execFinalize_noBuffer_cases s with ⟨-, e⟩ | ⟨-, e⟩ <;> rw [e]
  · exact raise_ne_refused _ _ _
  · exact complete_ne_refused _ _

theorem execUpdate_refused_iff (src len : Nat) (s : State) (r : Refusal) :
    execUpdate src len s = .refused r ↔
      r = .unbackedAddress ∧ s.valid = true ∧ s.fin = false ∧ src + len ≤ Config.addrTop ∧
        backed s.hmAdmit src len = false := by
  rcases execUpdate_cases src len s with
    ⟨hv, e⟩ | ⟨-, hf, e⟩ | ⟨-, -, hr, e⟩ | ⟨-, -, -, hb, e⟩ | ⟨hv, hf, hr, hb, e⟩ <;> rw [e]
  · simp [hv]
  · simp [hf]
  · simp [Nat.not_le.2 hr]
  · simp [hb]
  · simpa [hv, hf, hr, hb] using eq_comm

theorem execFinalize_buffer_refused_iff (cap dst : Nat) (s : State) (r : Refusal) :
    execFinalize (.buffer cap dst) s = .refused r ↔
      r = .unbackedAddress ∧ s.valid = true ∧ s.dlen ≤ cap ∧ dst + s.dlen ≤ Config.addrTop ∧
        backed s.hmAdmit dst s.dlen = false := by
  rcases execFinalize_buffer_cases cap dst s with
    ⟨hv, e⟩ | ⟨-, hc, e⟩ | ⟨-, -, hr, e⟩ | ⟨-, -, -, hb, e⟩ | ⟨hv, hc, hr, hb, e⟩ <;> rw [e]
  · simp [hv]
  · simp [Nat.not_le.2 hc]
  · simp [Nat.not_le.2 hr]
  · simp [hb]
  · simpa [hv, hc, hr, hb] using eq_comm

theorem execHash_refused_iff (var : Selector) (src len dst : Nat) (s : State) (r : Refusal) :
    execHash var src len dst s = .refused r ↔
      r = .unbackedAddress ∧ ∃ p, varParams var = some p ∧ src + len ≤ Config.addrTop ∧
        dst + p.dlen ≤ Config.addrTop ∧
        (backed s.hmAdmit src len = false ∨ backed s.hmAdmit dst p.dlen = false) := by
  rcases execHash_cases var src len dst s with
    ⟨hvar, e⟩ | ⟨p, hp, ⟨hr | hr, e⟩ | ⟨-, -, hs, hd, e⟩ | ⟨hs, hd, hb, e⟩⟩ <;> rw [e]
  · simp [(varParams_none_iff var).2 hvar]
  · simp [hp, Nat.not_le.2 hr]
  · simp [hp, Nat.not_le.2 hr]
  · simp [hp, hs, hd]
  · simpa [hp, hs, hd, hb] using eq_comm

/-! ### Writes -/

/-- A digest written within the address space, by a state that still holds the memory of `s`, changes its own
range only. -/
theorem writeDigest_sameOutside {s u : State} (hwf : s.hm.wf = true) (hm : u.hm = s.hm) {dst : Nat}
    (htop : dst + u.dlen ≤ Config.addrTop) : sameOutside dst u.dlen s (writeDigest dst u) := by
  intro k hk
  rw [writeDigest_hm, hm, readByte_memWrite hwf _ _ (by simpa using htop), if_neg (by rw [length_extract]; omega)]

/-- The digest HASH writes has the length its variant gives. -/
theorem hashContext_dlen {var : Selector} {p : VariantParams} (hp : varParams var = some p) (src len : Nat)
    (s : State) : (finalizeContext (updateContext src len (initContext p s))).dlen = p.dlen := by
  rw [finalizeContext_dlen, updateContext_dlen, initContext_dlen hp]

/-! ### Reads -/

theorem absorbFrom_congr {m m' : Memory} {rate count addr : Nat}
    (h : memRead m addr (count * rate) = memRead m' addr (count * rate)) (A : Lanes) :
    absorbFrom m rate count addr A = absorbFrom m' rate count addr A := by
  induction count generalizing addr A with
  | zero => rfl
  | succ n ih =>
    rw [Nat.succ_mul] at h
    rw [absorbFrom, absorbFrom, memRead_prefix_congr h (by omega), ih (memRead_part_congr h (by omega))]

/-- The loop of UPDATE reads host memory in the input's range only. -/
theorem absorbInput_hm_congr {s : State} {m : Memory} {src len : Nat}
    (h : memRead s.hm src len = memRead m src len) :
    absorbInput src len { s with hm := m } = { absorbInput src len s with hm := m } := by
  have hle : len / s.rate.toNat * s.rate.toNat ≤ len := Nat.div_mul_le_self _ _
  simp only [absorbInput, absorbFrom_congr (memRead_prefix_congr h hle),
    memRead_part_congr h (Nat.add_sub_of_le hle).le]

/-- UPDATE's effect reads host memory in the source range only (R45). -/
theorem updateContext_hm_congr {s : State} {m : Memory} {src len : Nat}
    (h : memRead s.hm src len = memRead m src len) :
    updateContext src len { s with hm := m } = { updateContext src len s with hm := m } := by
  unfold updateContext
  dsimp only
  split_ifs with hz hlt
  · exact absorbInput_hm_congr h
  · rw [h]
  · rw [memRead_prefix_congr h (Nat.not_lt.1 hlt)]
    exact absorbInput_hm_congr (s := { s with a := _, stg := _, bufLen := 0 }) (memRead_part_congr h (by omega))

/-- States that agree but in memory: the one with its memory replaced is the other. -/
theorem agreeButMemory_iff {s s' : State} : agreeButMemory s s' ↔ ∃ m, s' = { s with hm := m } := by
  refine ⟨fun h => ⟨s'.hm, h⟩, ?_⟩
  rintro ⟨m, rfl⟩
  rfl

namespace agreeButMemory

variable {s s' : State}

/-- Ending a command with one status leaves the agreement. -/
theorem ended (h : agreeButMemory s s') (st : Option Status) :
    agreeButMemory { s with status := st } { s' with status := st } := by
  obtain ⟨m, rfl⟩ := agreeButMemory_iff.1 h
  rfl

theorem initContext_agree (h : agreeButMemory s s') (p : VariantParams) :
    agreeButMemory (initContext p s) (initContext p s') := by
  obtain ⟨m, rfl⟩ := agreeButMemory_iff.1 h
  rfl

/-- UPDATE's effect reads host memory in the source range only (R45). -/
theorem updateContext_agree (h : agreeButMemory s s') {src len : Nat}
    (hread : memRead s.hm src len = memRead s'.hm src len) :
    agreeButMemory (updateContext src len s) (updateContext src len s') := by
  obtain ⟨m, rfl⟩ := agreeButMemory_iff.1 h
  exact agreeButMemory_iff.2 ⟨m, updateContext_hm_congr hread⟩

/-- FINALIZE's effect on the context reads no host memory. -/
theorem finalizeContext_agree (h : agreeButMemory s s') :
    agreeButMemory (finalizeContext s) (finalizeContext s') := by
  obtain ⟨m, rfl⟩ := agreeButMemory_iff.1 h
  unfold finalizeContext
  split_ifs <;> rfl

theorem writeDigest_agree (h : agreeButMemory s s') (dst : Nat) :
    agreeButMemory (writeDigest dst s) (writeDigest dst s') := by
  obtain ⟨m, rfl⟩ := agreeButMemory_iff.1 h
  rfl

/-- UPDATE reads the source range, and only where it absorbs. -/
theorem execUpdate_agree (h : agreeButMemory s s') (src len : Nat)
    (hread : s.valid = true → s.fin = false → src + len ≤ Config.addrTop →
      memRead s.hm src len = memRead s'.hm src len) :
    sameOutcome agreeButMemory (execUpdate src len s) (execUpdate src len s') := by
  obtain ⟨hvalid, hfin, hadm⟩ : s'.valid = s.valid ∧ s'.fin = s.fin ∧ s'.hmAdmit = s.hmAdmit := by
    rw [h]
    exact ⟨rfl, rfl, rfl⟩
  unfold execUpdate pastTop
  rw [hvalid, hfin, hadm]
  split_ifs with hv hf hr
  · exact h.ended _
  · exact h.ended _
  · exact h.ended _
  · exact (h.updateContext_agree (hread (by simpa using hv) (by simpa using hf) (by simpa using hr))).ended _
  · rfl

/-- FINALIZE reads no host memory. -/
theorem execFinalize_agree (h : agreeButMemory s s') (out : OutBuffer) :
    sameOutcome agreeButMemory (execFinalize out s) (execFinalize out s') := by
  obtain ⟨hvalid, hdlen, hadm⟩ : s'.valid = s.valid ∧ s'.dlen = s.dlen ∧ s'.hmAdmit = s.hmAdmit := by
    rw [h]
    exact ⟨rfl, rfl, rfl⟩
  have hclosed := h.finalizeContext_agree
  unfold execFinalize
  rw [hvalid, hdlen, hadm]
  split_ifs
  · exact h.ended _
  · cases out with
    | noBuffer => exact hclosed.ended _
    | buffer cap dst =>
      dsimp only
      split_ifs
      · exact h.ended _
      · exact h.ended _
      · exact (hclosed.writeDigest_agree dst).ended _
      · rfl

/-- HASH reads the source range, and only where its checks pass. -/
theorem execHash_agree (h : agreeButMemory s s') (var : Selector) (src len dst : Nat)
    (hread : ∀ p, varParams var = some p → src + len ≤ Config.addrTop → dst + p.dlen ≤ Config.addrTop →
      memRead s.hm src len = memRead s'.hm src len) :
    sameOutcome agreeButMemory (execHash var src len dst s) (execHash var src len dst s') := by
  have hadm : s'.hmAdmit = s.hmAdmit := by rw [h]
  unfold execHash pastTop
  rw [hadm]
  cases hp : varParams var with
  | none => exact h.ended _
  | some p =>
    dsimp only
    split_ifs with hr
    · exact h.ended _
    · obtain ⟨hs, hd⟩ : src + len ≤ Config.addrTop ∧ dst + p.dlen ≤ Config.addrTop := by simpa using hr
      have hupdated := (h.initContext_agree p).updateContext_agree (hread p hp hs hd)
      exact (hupdated.finalizeContext_agree.writeDigest_agree dst).ended _
    · rfl

end agreeButMemory

end Sys2Proof.Machine
end

section
/-! SUPPORT. The claims of 20_memory.md. -/

namespace Sys2Proof.Machine

/-- Settles O51, by what a write of a byte sequence does to every read. -/
theorem memWriteSetsItsRangeOnly : Obligations.MemWriteSetsItsRangeOnly := by
  intro m addr v hwf htop
  refine ⟨fun k hk => ?inside, fun a ha => ?outside, Memory.wf_memWrite hwf addr v htop⟩
  case inside =>
    rw [readByte_memWrite hwf addr v htop, if_pos (by omega), Nat.add_sub_cancel_left, List.getD_eq_getElem _ _ hk]
  case outside => rw [readByte_memWrite hwf addr v htop, if_neg (by omega)]

/-- Settles O52, by induction on the entries of the two memories. -/
theorem canonicalMemoryIsUnique : Obligations.CanonicalMemoryIsUnique :=
  fun _ _ hwf hwf' hread => Memory.wfFrom_ext hwf hwf' hread

/-- Settles O20: no input to top up with, none to absorb and none to stage. -/
theorem zeroLengthUpdateChangesNothing : Obligations.ZeroLengthUpdateChangesNothing := by
  intro s src hok hv hsrc
  obtain ⟨hr, hb, -⟩ := (contextOk_iff s).1 hok hv
  refine ⟨?_, dlen_ge_of_legalRate hr⟩
  rcases Bool.eq_false_or_eq_true s.fin with hf | hf
  · exact exec_update_finalized src 0 hv hf
  · rw [exec_update_next hv hf ⟨hsrc.le, backed_zero _ _⟩, updateContext_zero_length hb]

/-- Settles O43, by the exact condition of each command's refusal. -/
theorem refusedExactlyForUnbackedRange : Obligations.RefusedExactlyForUnbackedRange := by
  intro s
  refine ⟨fun r var => execInit_ne_refused var s r, execFinalize_noBuffer_ne_refused s, ?update, ?finalize, ?hash⟩
  case update =>
    intro r src len
    rw [condition_active_iff, ← backed_eq_false_iff, and_assoc]
    exact execUpdate_refused_iff src len s r
  case finalize =>
    intro r cap dst
    rw [condition_ne_empty_iff, ← backed_eq_false_iff]
    exact execFinalize_buffer_refused_iff cap dst s r
  case hash =>
    intro r var src len dst
    simp only [← backed_eq_false_iff]
    exact execHash_refused_iff var src len dst s r

/-- Settles O47, by everything a command can have done. -/
theorem commandsKeepParameterAndPort : Obligations.CommandsKeepParameterAndPort := by
  intro i s t ht
  cases exec_next_cases ht with
  | failed => exact ⟨rfl, rfl, _, rfl⟩
  | init => exact ⟨rfl, rfl, _, rfl⟩
  | ignored => exact ⟨rfl, rfl, _, rfl⟩
  | update => exact ⟨by simp, by simp, _, rfl⟩
  | close => exact ⟨by simp, by simp, _, rfl⟩
  | write => exact ⟨by simp, by simp, _, rfl⟩
  | hash => exact ⟨by simp, by simp, _, rfl⟩

/-- Settles O48: only the digest write changes host memory, within its range. -/
theorem commandsWriteOnlyTheDigestRange : Obligations.CommandsWriteOnlyTheDigestRange := by
  intro i s t hmem ht
  obtain ⟨hwf, -⟩ := (memoryOk_iff s).1 hmem
  cases exec_next_cases ht with
  | failed i =>
    refine ⟨fun _ => rfl, ?_⟩
    match i with
    | .init _ => rfl
    | .update _ _ => rfl
    | .finalize .noBuffer => rfl
    | .finalize (.buffer _ _) => exact fun _ _ => rfl
    | .hash _ _ _ _ => exact fun _ _ => rfl
  | init => exact ⟨fun _ => rfl, rfl⟩
  | ignored => exact ⟨fun _ => rfl, rfl⟩
  | update src len => exact ⟨fun _ => updateContext_hm src len s, updateContext_hm src len s⟩
  | close => exact ⟨fun _ => finalizeContext_hm s, finalizeContext_hm s⟩
  | write cap dst _ _ hr =>
    refine ⟨fun hst => absurd rfl hst, ?_⟩
    have hout := writeDigest_sameOutside hwf (u := finalizeContext s) (by simp) (dst := dst) (by simpa using hr.1)
    rwa [finalizeContext_dlen] at hout
  | hash var p src len dst hp _ hd =>
    refine ⟨fun hst => absurd rfl hst, ?_⟩
    have hlen := hashContext_dlen hp src len s
    have hout := writeDigest_sameOutside hwf (u := finalizeContext (updateContext src len (initContext p s)))
      (by simp) (dst := dst) (hlen ▸ hd.1)
    rwa [hlen, varParams_dlen hp] at hout

/-- Settles O49: the only read of host memory is that of the source range, by UPDATE's effect. -/
theorem commandsReadOnlyTheSourceRange : Obligations.CommandsReadOnlyTheSourceRange := by
  intro s m
  have h : agreeButMemory s { s with hm := m } := rfl
  refine ⟨?update, ?init, h.execFinalize_agree, ?hash, ?updateUnread, ?hashUnread⟩
  case update => exact fun src len hread => h.execUpdate_agree src len fun _ _ _ => hread
  case init => exact fun var => sameOutcome_execInit var (fun _ => h.ended _) fun p _ => (h.initContext_agree p).ended _
  case hash => exact fun var src len dst hread => h.execHash_agree var src len dst fun _ _ _ _ => hread
  case updateUnread =>
    intro src len hunread
    refine h.execUpdate_agree src len fun hv hf hr => ?_
    rcases hunread with hf' | hv' | hr'
    · simp [hf] at hf'
    · simp [hv] at hv'
    · exact absurd hr (Nat.not_le.2 hr')
  case hashUnread =>
    intro var src len dst hunread
    refine h.execHash_agree var src len dst fun p hp hs hd => ?_
    rcases hunread with hvar | hs' | hd'
    · simp [(varParams_none_iff var).2 hvar] at hp
    · exact absurd hs (Nat.not_le.2 hs')
    · exact absurd hd (Nat.not_le.2 (varParams_dlen hp ▸ hd'))

end Sys2Proof.Machine
end

section
/-! SUPPORT. The decoder read backwards: which command word each decoded command was read from, and the masks of
its rows (30_encoding.md R57, R58, R62, R64). -/

namespace Sys2Proof

/-! ### A command word by its fields, and under a row's mask -/

section
variable {w mask : BitVec 32} {nb : Bool} {var op : BitVec 4}

theorem eq_commandWord_iff :
    w = commandWord nb var op ↔ fieldRsv w = 0 ∧ fieldNb w = nb ∧ fieldVar w = var ∧ fieldOp w = op := by
  constructor
  · rintro rfl
    simp
  · rintro ⟨hrsv, rfl, rfl, rfl⟩
    exact (commandWord_fields w hrsv).symm

/-- Every mask of R64 compares all of RSV and OP; of NB and VAR it compares the bits it has set. -/
theorem and_eq_commandWord_iff (hrsv : fieldRsv mask = BitVec.allOnes 23) (hop : fieldOp mask = BitVec.allOnes 4) :
    w &&& mask = commandWord nb var op ↔
      fieldRsv w = 0 ∧ (fieldNb w && fieldNb mask) = nb ∧ fieldVar w &&& fieldVar mask = var ∧ fieldOp w = op := by
  have hrsv' : fieldRsv (w &&& mask) = fieldRsv w := by
    rw [← BitVec.and_allOnes (x := fieldRsv w), ← hrsv]
    exact BitVec.extractLsb'_and
  have hnb : fieldNb (w &&& mask) = (fieldNb w && fieldNb mask) := BitVec.getLsbD_and
  have hvar : fieldVar (w &&& mask) = fieldVar w &&& fieldVar mask := BitVec.extractLsb'_and
  have hop' : fieldOp (w &&& mask) = fieldOp w := by
    rw [← BitVec.and_allOnes (x := fieldOp w), ← hop]
    exact BitVec.extractLsb'_and
  rw [eq_commandWord_iff, hrsv', hnb, hvar, hop']

/-- The mask of UPDATE leaves nothing free. -/
theorem and_mask_all_iff : w &&& 0xFFFFFFFF = commandWord nb var op ↔ w = commandWord nb var op := by
  have hmask : (0xFFFFFFFF : BitVec 32) = BitVec.allOnes 32 := rfl
  rw [hmask, BitVec.and_allOnes]

/-- The mask of INIT and HASH leaves VAR free. -/
theorem and_mask_var_iff :
    w &&& 0xFFFFFF0F = commandWord false 0 op ↔ w = commandWord false (fieldVar w) op := by
  have hnb : fieldNb 0xFFFFFF0F = true := by decide
  have hvar : fieldVar 0xFFFFFF0F = 0 := by decide
  rw [and_eq_commandWord_iff (by decide) (by decide), eq_commandWord_iff, hnb, hvar]
  simp

/-- The mask of FINALIZE leaves NB free. -/
theorem and_mask_nb_iff :
    w &&& 0xFFFFFEFF = commandWord false 0 op ↔ w = commandWord (fieldNb w) 0 op := by
  have hnb : fieldNb 0xFFFFFEFF = false := by decide
  have hvar : fieldVar 0xFFFFFEFF = BitVec.allOnes 4 := by decide
  rw [and_eq_commandWord_iff (by decide) (by decide), eq_commandWord_iff, hnb, hvar, BitVec.and_allOnes]
  simp

end

/-- The command word of a descriptor, by the descriptor's own bits. -/
theorem descWord_eq_commandWord_iff (d : Desc) (nb : Bool) (var op : BitVec 4) :
    descWord d 0 = commandWord nb var op ↔
      (d.extractLsb' 9 23).toNat = 0 ∧ d.getLsbD 8 = nb ∧ (d.extractLsb' 4 4).toNat = var.toNat ∧
        (d.extractLsb' 0 4).toNat = op.toNat := by
  rw [eq_commandWord_iff, fieldRsv_descWord, fieldNb_descWord, fieldVar_descWord, fieldOp_descWord,
    ← BitVec.toNat_inj, ← BitVec.toNat_inj, ← BitVec.toNat_inj]
  rfl

/-! ### What each decoded command was read from -/

/-- The command word and the operand words a command is read from (R58, R59). -/
inductive ReadFrom (d : Desc) : Instr → Prop where
  | init (var : Selector) (h : descWord d 0 = commandWord false var 1) : ReadFrom d (.init var)
  | update (h : descWord d 0 = commandWord false 0 2) :
      ReadFrom d (.update (descWord d 1).toNat (descWord d 2).toNat)
  | noBuffer (h : descWord d 0 = commandWord true 0 3) : ReadFrom d (.finalize .noBuffer)
  | buffer (h : descWord d 0 = commandWord false 0 3) :
      ReadFrom d (.finalize (.buffer (descWord d 2).toNat (descWord d 3).toNat))
  | hash (var : Selector) (h : descWord d 0 = commandWord false var 4) :
      ReadFrom d (.hash var (descWord d 1).toNat (descWord d 2).toNat (descWord d 3).toNat)

/-- A decoded command passed the decoder's tests of RSV, OP, NB and VAR, so its command word is known. -/
theorem readFrom_of_decode {d : Desc} {i : Instr} (h : decode d = .command i) : ReadFrom d i := by
  unfold decode at h
  dsimp only at h
  split at h
  case isTrue => cases h
  case isFalse hrsv =>
    have word {nb : Bool} {var op : BitVec 4} (hnb : fieldNb (descWord d 0) = nb)
        (hvar : fieldVar (descWord d 0) = var) (hop : (fieldOp (descWord d 0)).toNat = op.toNat) :
        descWord d 0 = commandWord nb var op :=
      eq_commandWord_iff.2 ⟨not_not.1 hrsv, hnb, hvar, BitVec.eq_of_toNat_eq hop⟩
    split at h
    case h_1 hop =>
      split at h <;> cases h
      case isFalse hnb => exact .init _ (word (Bool.eq_false_iff.2 hnb) rfl hop)
    case h_2 hop =>
      split at h
      case isTrue => cases h
      case isFalse hnb =>
        split at h <;> cases h
        case isFalse hvar => exact .update (word (Bool.eq_false_iff.2 hnb) (not_not.1 hvar) hop)
    case h_3 hop =>
      split at h
      case isTrue => cases h
      case isFalse hvar =>
        split at h <;> cases h
        case isTrue hnb => exact .noBuffer (word hnb (not_not.1 hvar) hop)
        case isFalse hnb => exact .buffer (word (Bool.eq_false_iff.2 hnb) (not_not.1 hvar) hop)
    case h_4 hop =>
      split at h <;> cases h
      case isFalse hnb => exact .hash _ (word (Bool.eq_false_iff.2 hnb) rfl hop)
    case h_5 => cases h

section
variable (d : Desc)

theorem decodes_to_init_iff :
    (∃ var, decode d = .command (.init var)) ↔
      descWord d 0 = commandWord false (fieldVar (descWord d 0)) 1 := by
  refine ⟨fun ⟨var, h⟩ => ?_, fun h => ⟨_, decode_init d _ h⟩⟩
  cases readFrom_of_decode h with
  | init _ hw => rw [hw, fieldVar_commandWord]

theorem decodes_to_update_iff :
    (∃ src len, decode d = .command (.update src len)) ↔ descWord d 0 = commandWord false 0 2 := by
  refine ⟨fun ⟨src, len, h⟩ => ?_, fun h => ⟨_, _, decode_update d h⟩⟩
  cases readFrom_of_decode h with
  | update hw => exact hw

theorem decodes_to_finalize_iff :
    (∃ out, decode d = .command (.finalize out)) ↔
      descWord d 0 = commandWord (fieldNb (descWord d 0)) 0 3 := by
  constructor
  · rintro ⟨out, h⟩
    cases readFrom_of_decode h with
    | noBuffer hw => rw [hw, fieldNb_commandWord]
    | buffer hw => rw [hw, fieldNb_commandWord]
  · intro h
    cases hnb : fieldNb (descWord d 0) with
    | true => exact ⟨_, decode_finalize_noBuffer d (hnb ▸ h)⟩
    | false => exact ⟨_, decode_finalize_buffer d (hnb ▸ h)⟩

theorem decodes_to_hash_iff :
    (∃ var src len dst, decode d = .command (.hash var src len dst)) ↔
      descWord d 0 = commandWord false (fieldVar (descWord d 0)) 4 := by
  refine ⟨fun ⟨var, src, len, dst, h⟩ => ?_, fun h => ⟨_, _, _, _, decode_hash d _ h⟩⟩
  cases readFrom_of_decode h with
  | hash _ hw => rw [hw, fieldVar_commandWord]

/-- A descriptor is illegal when its command word is that of none of the four commands. -/
theorem decode_illegal_iff :
    (∃ why, decode d = .illegal why) ↔
      descWord d 0 ≠ commandWord false (fieldVar (descWord d 0)) 1 ∧
      descWord d 0 ≠ commandWord false 0 2 ∧
      descWord d 0 ≠ commandWord (fieldNb (descWord d 0)) 0 3 ∧
      descWord d 0 ≠ commandWord false (fieldVar (descWord d 0)) 4 := by
  simp only [ne_eq, ← decodes_to_init_iff, ← decodes_to_update_iff, ← decodes_to_finalize_iff,
    ← decodes_to_hash_iff]
  cases decode d with
  | illegal why => simp
  | command i => cases i <;> simp

end

/-- An instruction of the opcode table is what the decoder reads from its bits. -/
theorem decodeTableWord_eq_some_iff (nbits w : Nat) (i : Instr) :
    decodeTableWord nbits w = some i ↔ decode (tableDesc nbits w) = .command i := by
  unfold decodeTableWord
  cases decode (tableDesc nbits w) <;> simp

/-! ### The stored form -/

/-- Reading `n` little-endian bytes of a number gives its low `8 * n` bits. -/
theorem foldr_littleEndian (n x : Nat) :
    (List.ofFn fun k : Fin n => BitVec.ofNat 8 (x >>> (8 * k.val))).foldr (fun b acc => b.toNat + 2 ^ 8 * acc) 0 =
      x % 2 ^ (8 * n) := by
  induction n generalizing x with
  | zero => simp [Nat.mod_one]
  | succ n ih =>
    have htail : (fun k : Fin n => BitVec.ofNat 8 (x >>> (8 * k.succ.val))) =
        fun k : Fin n => BitVec.ofNat 8 ((x >>> 8) >>> (8 * k.val)) := by
      funext k
      rw [← Nat.shiftRight_add, Fin.val_succ, Nat.mul_succ, Nat.add_comm]
    rw [List.ofFn_succ, List.foldr_cons, htail, ih, Nat.mul_succ, Nat.add_comm (8 * n), Nat.pow_add, Nat.mod_mul,
      Nat.shiftRight_eq_div_pow, Nat.shiftRight_eq_div_pow, BitVec.toNat_ofNat]
    simp

theorem descOfBytes_descBytes (d : Desc) : descOfBytes (descBytes d) = d := by
  apply BitVec.eq_of_toNat_eq
  have h : (descBytes d).toList = List.ofFn fun k : Fin 16 => BitVec.ofNat 8 (d.toNat >>> (8 * k.val)) := rfl
  rw [descOfBytes, h, foldr_littleEndian, BitVec.toNat_ofNat]
  have := d.isLt
  omega

end Sys2Proof
end

section
/-! SUPPORT. The claims of 30_encoding.md. -/

namespace Sys2Proof.Machine

/-- Settles O1: the decoder reads back the words the encoder wrote, and a word holds every well-formed operand. -/
theorem decodeEncodeRoundTrip : Obligations.DecodeEncodeRoundTrip := by
  intro i hwf
  cases i with
  | init var => exact decode_init _ var (descWord_zero ..)
  | update src len =>
    obtain ⟨hsrc, hlen⟩ := (wf_update_iff src len).1 hwf
    rw [encode, decode_update _ (descWord_zero ..), descWord_one, descWord_two,
      BitVec.toNat_ofNat, BitVec.toNat_ofNat, Nat.mod_eq_of_lt hsrc, Nat.mod_eq_of_lt hlen]
  | finalize out =>
    cases out with
    | noBuffer => exact decode_finalize_noBuffer _ (descWord_zero ..)
    | buffer cap dst =>
      obtain ⟨hcap, hdst⟩ := (wf_finalize_buffer_iff cap dst).1 hwf
      rw [encode, decode_finalize_buffer _ (descWord_zero ..), descWord_two, descWord_three,
        BitVec.toNat_ofNat, BitVec.toNat_ofNat, Nat.mod_eq_of_lt hcap, Nat.mod_eq_of_lt hdst]
  | hash var src len dst =>
    obtain ⟨hsrc, hlen, hdst⟩ := (wf_hash_iff var src len dst).1 hwf
    rw [encode, decode_hash _ var (descWord_zero ..), descWord_one, descWord_two, descWord_three,
      BitVec.toNat_ofNat, BitVec.toNat_ofNat, BitVec.toNat_ofNat, Nat.mod_eq_of_lt hsrc, Nat.mod_eq_of_lt hlen,
      Nat.mod_eq_of_lt hdst]

/-- Settles O2: each row's match value is the command word with the bits its mask leaves free cleared. -/
theorem decodeByMatchAndMask : Obligations.DecodeByMatchAndMask := by
  intro d
  have hinit : descWord d 0 &&& 0xFFFFFF0F = 0x00000001 ↔ _ := and_mask_var_iff (op := 1)
  have hupdate : descWord d 0 &&& 0xFFFFFFFF = 0x00000002 ↔ _ :=
    and_mask_all_iff (nb := false) (var := 0) (op := 2)
  have hfinalize : descWord d 0 &&& 0xFFFFFEFF = 0x00000003 ↔ _ := and_mask_nb_iff (op := 3)
  have hhash : descWord d 0 &&& 0xFFFFFF0F = 0x00000004 ↔ _ := and_mask_var_iff (op := 4)
  simp only [ne_eq, hinit, hupdate, hfinalize, hhash]
  exact ⟨decodes_to_init_iff d, decodes_to_update_iff d, decodes_to_finalize_iff d, decodes_to_hash_iff d,
    decode_illegal_iff d⟩

/-- Settles O3: the four kinds of R63 are the ways for a command word to be none of the four commands'. -/
theorem illegalDescriptorsExactly : Obligations.IllegalDescriptorsExactly := by
  intro d s
  dsimp only
  constructor
  case left =>
    simp only [decode_illegal_iff, ne_eq, descWord_eq_commandWord_iff, fieldVar_descWord, fieldNb_descWord,
      BitVec.ofNat_eq_ofNat, BitVec.toNat_ofNat]
    generalize (d.extractLsb' 9 23).toNat = rsv, d.getLsbD 8 = nb, (d.extractLsb' 4 4).toNat = var,
      (d.extractLsb' 0 4).toNat = op
    cases nb with
    | false =>
      simp only [reduceCtorEq, true_and, false_and, false_or]
      omega
    | true =>
      simp only [reduceCtorEq, true_and, and_true, false_and, and_false, not_false_eq_true]
      omega
  case right =>
    rintro ⟨why, h⟩
    rw [runDesc, h]
    rfl

/-- Settles O4, by the equation of the decoder for each form; where VAR is free it is the word's own field. -/
theorem decodeReadsOperandWords : Obligations.DecodeReadsOperandWords := by
  intro d w1 w2 w3
  refine ⟨fun h => ?init, decode_update d, decode_finalize_buffer d, decode_finalize_noBuffer d, fun h => ?hash⟩
  case init =>
    rw [decode_init d _ ((and_mask_var_iff (op := 1)).1 h), fieldVar_descWord]
  case hash =>
    rw [decode_hash d _ ((and_mask_var_iff (op := 4)).1 h), fieldVar_descWord]
    rfl

/-- Settles O5, by the words each decoded command was read from. -/
theorem decodedCommandKeepsItsCommandWord : Obligations.DecodedCommandKeepsItsCommandWord := by
  intro d i h
  cases readFrom_of_decode h with
  | init var hw => exact ⟨rfl, by rw [encode, descWord_zero, hw]⟩
  | update hw =>
    exact ⟨(wf_update_iff _ _).2 ⟨BitVec.isLt _, BitVec.isLt _⟩, by rw [encode, descWord_zero, hw]⟩
  | noBuffer hw => exact ⟨rfl, by rw [encode, descWord_zero, hw]⟩
  | buffer hw =>
    exact ⟨(wf_finalize_buffer_iff _ _).2 ⟨BitVec.isLt _, BitVec.isLt _⟩, by rw [encode, descWord_zero, hw]⟩
  | hash var hw =>
    exact ⟨(wf_hash_iff _ _ _ _).2 ⟨BitVec.isLt _, BitVec.isLt _, BitVec.isLt _⟩, by rw [encode, descWord_zero, hw]⟩

/-- Settles O7: the bytes are the base-256 digits of the descriptor. -/
theorem storedDescriptorIsLittleEndian : Obligations.StoredDescriptorIsLittleEndian :=
  fun d => ⟨descOfBytes_descBytes d, fun _ hk => nth_tabulate _ _ _ hk⟩

/-- Settles O6, row by row of R69's table. -/
theorem workedEncodings : Obligations.WorkedEncodings := by
  unfold Obligations.WorkedEncodings
  constructor
  case left =>
    simp only [List.forall_mem_cons]
    refine ⟨?init, ?update, ?finalize, ?finalizeNone, ?hash, ?initRaw, List.forall_mem_nil _⟩ <;> decide
  case right => decide

/-- A step on a descriptor that decodes to a command runs that command. -/
theorem step_issue_command {s : State} {d : Desc} {rest : List HostAction} {i : Instr}
    (hp : s.port = .issue d :: rest) (hd : decode d = .command i) : step s = exec i { s with port := rest } := by
  rw [step_issue hp, runDesc, hd]

/-- Settles O8: `withFetchWord` puts the table word's descriptor at the head of the port. -/
theorem stepRunsDecodedCommand : Obligations.StepRunsDecodedCommand := by
  refine ⟨fun _ _ _ _ => step_issue_command, fun s nbits w i hd => ?_⟩
  exact step_issue_command (withFetchWord_port s nbits w) ((decodeTableWord_eq_some_iff nbits w i).1 hd)

end Sys2Proof.Machine
end

section
/-! SUPPORT. Rotation and the steps of the permutation as one-to-one maps (40_permutation_engine.md R73 to R86). -/

namespace Sys2Proof.Machine

/-! ### Rotation -/

theorem toNat_rotl64 (v : Lane) (n : Nat) :
    (rotl64 v n).toNat = ((v.toNat <<< n) ||| (v.toNat >>> (64 - n))) &&& 0xFFFFFFFFFFFFFFFF := by
  have hright : v.toNat >>> (64 - n) < 2 ^ 64 := Nat.lt_of_le_of_lt (Nat.shiftRight_le _ _) v.isLt
  rw [show 0xFFFFFFFFFFFFFFFF = 2 ^ 64 - 1 from rfl, Nat.and_two_pow_sub_one_eq_mod, Nat.or_mod_two_pow,
    Nat.mod_eq_of_lt hright, rotl64, BitVec.toNat_or, BitVec.toNat_shiftLeft, BitVec.toNat_ushiftRight]

/-- Bit `i` of a lane, by the bit it becomes. -/
theorem getLsbD_rotl64_add (v : Lane) (n i : Nat) (hn : n < 64) (hi : i < 64) :
    (rotl64 v n).getLsbD ((i + n) % 64) = v.getLsbD i := by
  rw [getLsbD_rotl64 v n _ hn (by omega), show ((i + n) % 64 + (64 - n)) % 64 = i by omega]

/-- A rotation only moves the 1 bits, so it keeps their number. -/
theorem card_bits_rotl64 (v : Lane) (n : Nat) (hn : n < 64) :
    (Finset.univ.filter fun i : Fin 64 => (rotl64 v n).getLsbD i.val = true).card =
      (Finset.univ.filter fun i : Fin 64 => v.getLsbD i.val = true).card := by
  refine (Finset.card_equiv (Equiv.addRight (⟨n, hn⟩ : Fin 64)) fun i => ?_).symm
  simp only [Finset.mem_filter, Finset.mem_univ, true_and, Equiv.coe_addRight, Fin.val_add,
    getLsbD_rotl64_add v n i.val hn i.isLt]

theorem rotl64_injective (n : Nat) (hn : n < 64) : Function.Injective fun v => rotl64 v n :=
  Function.LeftInverse.injective (g := fun v => rotl64 v ((64 - n) % 64)) fun v => rotl64_cancel v n hn

/-! ### THETA: a parity that the diffusion reproduces is zero -/

/-- Entry x of `c` is the entry `t` columns back, XORed with the entry `t` columns on rotated by `n`. -/
def FixedByDiffusion (c : Fin 5 → Lane) (t : Fin 5) (n : Nat) : Prop :=
  ∀ x, c x = c (x - t) ^^^ rotl64 (c (x + t)) n

/-- Applied twice, the two occurrences of entry x itself cancel. -/
theorem FixedByDiffusion.double {c : Fin 5 → Lane} {t : Fin 5} {n : Nat} (h : FixedByDiffusion c t n)
    (hn : n < 64) : FixedByDiffusion c (t + t) ((n + n) % 64) := by
  intro x
  have hback : c (x - t) = c (x - (t + t)) ^^^ rotl64 (c x) n := by
    rw [h (x - t), sub_sub, sub_add_cancel]
  have hon : rotl64 (c (x + t)) n = rotl64 (c x) n ^^^ rotl64 (c (x + (t + t))) ((n + n) % 64) := by
    rw [h (x + t), rotl64_xor _ _ _ hn, rotl64_rotl64 _ _ _ hn hn, add_sub_cancel_right, add_assoc]
  calc c x = c (x - t) ^^^ rotl64 (c (x + t)) n := h x
    _ = c (x - (t + t)) ^^^ rotl64 (c (x + (t + t))) ((n + n) % 64) := by
      rw [hback, hon, BitVec.xor_assoc, ← BitVec.xor_assoc (rotl64 (c x) n), BitVec.xor_self, BitVec.zero_xor]

/-- Six doublings make the rotation one by 64, which is none, and the distance 64 mod 5 = 4. -/
theorem FixedByDiffusion.unrotated {c : Fin 5 → Lane} (h : FixedByDiffusion c 1 1) : FixedByDiffusion c 4 0 :=
  have h2 : FixedByDiffusion c 2 2 := h.double (by decide)
  have h4 : FixedByDiffusion c 4 4 := h2.double (by decide)
  have h8 : FixedByDiffusion c 3 8 := h4.double (by decide)
  have h16 : FixedByDiffusion c 1 16 := h8.double (by decide)
  have h32 : FixedByDiffusion c 2 32 := h16.double (by decide)
  h32.double (by decide)

/-- Without the rotation each entry is the XOR of its two neighbours. Then the neighbours of entry x are both the
XOR of entries x + 2 and x + 3, and entry x is the XOR of equal lanes. -/
theorem FixedByDiffusion.eq_zero {c : Fin 5 → Lane} (h : FixedByDiffusion c 1 1) (x : Fin 5) : c x = 0 := by
  have hsum : ∀ y, c y = c (y + 1) ^^^ c (y + 4) := fun y => by
    have := h.unrotated y
    rwa [rotl64_zero, sub_eq_add_neg, show (-4 : Fin 5) = 1 from rfl] at this
  have h2 : c (x + 2) = c (x + 3) ^^^ c (x + 1) := by simpa [add_assoc] using hsum (x + 2)
  have h3 : c (x + 3) = c (x + 4) ^^^ c (x + 2) := by simpa [add_assoc] using hsum (x + 3)
  have hnext : c (x + 1) = c (x + 3) ^^^ c (x + 2) := by
    rw [h2, ← BitVec.xor_assoc, BitVec.xor_self, BitVec.zero_xor]
  have hprev : c (x + 4) = c (x + 3) ^^^ c (x + 2) := by
    rw [h3, BitVec.xor_assoc, BitVec.xor_self, BitVec.xor_zero]
  rw [hsum x, hnext, hprev]
  exact BitVec.xor_self

/-- The difference of the column parities of two states. -/
def parityDifference (A B : Lanes) (x : Fin 5) : Lane :=
  nth (columnParity A) x.val 0 ^^^ nth (columnParity B) x.val 0

theorem xor_five_xor (a b c d e p : Lane) :
    (a ^^^ p) ^^^ (b ^^^ p) ^^^ (c ^^^ p) ^^^ (d ^^^ p) ^^^ (e ^^^ p) = (a ^^^ b ^^^ c ^^^ d ^^^ e) ^^^ p := by
  apply BitVec.eq_of_getLsbD_eq
  intro i _
  cases h : p.getLsbD i <;> simp [h]

/-- THETA adds the diffusion to a column five times, which is once. -/
theorem nth_columnParity_theta (A : Lanes) (x : Nat) (hx : x < 5) :
    nth (columnParity (theta A)) x 0 = nth (columnParity A) x 0 ^^^ nth (diffusion (columnParity A)) x 0 := by
  rw [nth_columnParity_laneAt _ x hx, nth_columnParity_laneAt _ x hx,
    laneAt_theta A x 0 hx (by decide), laneAt_theta A x 1 hx (by decide), laneAt_theta A x 2 hx (by decide),
    laneAt_theta A x 3 hx (by decide), laneAt_theta A x 4 hx (by decide), xor_five_xor]

theorem nth_diffusion_fin (A : Lanes) (x : Fin 5) :
    nth (diffusion (columnParity A)) x.val 0 =
      nth (columnParity A) (x - 1).val 0 ^^^ rotl64 (nth (columnParity A) (x + 1).val 0) 1 := by
  rw [sub_eq_add_neg, Fin.val_add, Fin.val_add]
  exact nth_diffusion _ x.val x.isLt

/-- Equal sums, regrouped by what the two sides differ in. -/
theorem xor_xor_of_xor_eq {p q r p' q' r' : Lane} (h : p ^^^ (q ^^^ r) = p' ^^^ (q' ^^^ r')) :
    p ^^^ p' = (q ^^^ q') ^^^ (r ^^^ r') := by
  have hp : p = p' ^^^ ((q ^^^ q') ^^^ (r ^^^ r')) := by
    calc p = p ^^^ (q ^^^ r) ^^^ (q ^^^ r) := by rw [BitVec.xor_assoc, BitVec.xor_self, BitVec.xor_zero]
      _ = p' ^^^ (q' ^^^ r') ^^^ (q ^^^ r) := by rw [h]
      _ = p' ^^^ ((q ^^^ q') ^^^ (r ^^^ r')) := by ac_rfl
  rw [hp, BitVec.xor_comm p', BitVec.xor_assoc, BitVec.xor_self, BitVec.xor_zero]

/-- Where THETA answers alike, the difference of the parities is what the diffusion makes of it. -/
theorem fixedByDiffusion_parityDifference {A B : Lanes} (h : theta A = theta B) :
    FixedByDiffusion (parityDifference A B) 1 1 := by
  intro x
  have heq := nth_columnParity_theta A x.val x.isLt
  rw [h, nth_columnParity_theta B x.val x.isLt, nth_diffusion_fin, nth_diffusion_fin] at heq
  rw [parityDifference, parityDifference, parityDifference, rotl64_xor _ _ 1 (by decide)]
  exact xor_xor_of_xor_eq heq.symm

theorem theta_injective : Function.Injective theta := by
  intro A B h
  have hparity : columnParity A = columnParity B :=
    table_ext _ _ 0 fun x => BitVec.xor_eq_zero_iff.1 ((fixedByDiffusion_parityDifference h).eq_zero x)
  refine lanes_ext A B fun i hi => ?_
  have hi' := congrArg (lane · i) h
  simpa only [lane_theta _ i hi, hparity, BitVec.xor_left_inj] using hi'

/-! ### RHO, PI, CHI, IOTA -/

theorem rho_injective : Function.Injective rho := by
  intro A B h
  refine lanes_ext A B fun i hi => rotl64_injective _ (rhoOffset_lt i hi) ?_
  simpa only [lane_rho _ i hi] using congrArg (lane · i) h

theorem lane_pi_piTarget (A : Lanes) (i : Nat) (hi : i < 25) : lane (pi A) (nth piTarget i 0) = lane A i := by
  rw [lane_pi A _ (piTarget_lt i hi), piSource_piTarget i hi]

theorem pi_injective : Function.Injective pi := by
  intro A B h
  refine lanes_ext A B fun i hi => ?_
  rw [← lane_pi_piTarget A i hi, h, lane_pi_piTarget B i hi]

/-- What CHI makes of a lane `u` with `v` and `w` in the next two columns of its row (R81). -/
def chiLane (u v w : Lane) : Lane := u ^^^ (~~~ v &&& w)

/-- One bit of `chiLane`. -/
def chiBit (u v w : Bool) : Bool := u ^^ (!v && w)

theorem getLsbD_chiLane (u v w : Lane) (i : Nat) (hi : i < 64) :
    (chiLane u v w).getLsbD i = chiBit (u.getLsbD i) (v.getLsbD i) (w.getLsbD i) := by
  simp [chiLane, chiBit, hi]

/-- The first of five bits in a row, out of the row that CHI makes of them. -/
theorem chiBit_inverse : ∀ a b c d e : Bool,
    a = chiBit (chiBit a b c) (chiBit b c d) (chiBit (chiBit c d e) (chiBit d e a) (chiBit e a b)) := by decide

theorem chiLane_inverse (a b c d e : Lane) :
    a = chiLane (chiLane a b c) (chiLane b c d) (chiLane (chiLane c d e) (chiLane d e a) (chiLane e a b)) := by
  apply BitVec.eq_of_getLsbD_eq
  intro i hi
  simp only [getLsbD_chiLane _ _ _ i hi]
  exact chiBit_inverse _ _ _ _ _

theorem laneAt_chi_eq_chiLane (A : Lanes) (x y : Nat) (hx : x < 5) (hy : y < 5) :
    laneAt (chi A) x y = chiLane (laneAt A x y) (laneAt A ((x + 1) % 5) y) (laneAt A ((x + 2) % 5) y) :=
  laneAt_chi A x y hx hy

/-- Each lane out of the row that CHI made. -/
theorem laneAt_of_chi (A : Lanes) (x y : Nat) (hx : x < 5) (hy : y < 5) :
    laneAt A x y = chiLane (laneAt (chi A) x y) (laneAt (chi A) ((x + 1) % 5) y)
      (chiLane (laneAt (chi A) ((x + 2) % 5) y) (laneAt (chi A) ((x + 3) % 5) y)
        (laneAt (chi A) ((x + 4) % 5) y)) := by
  have hlt : ∀ k, (x + k) % 5 < 5 := by omega
  have hmod : ∀ k j, ((x + k) % 5 + j) % 5 = (x + (k + j)) % 5 := by omega
  simp only [laneAt_chi_eq_chiLane A _ y hx hy, laneAt_chi_eq_chiLane A _ y (hlt _) hy, hmod, Nat.reduceAdd,
    show (x + 5) % 5 = x by omega, show (x + 6) % 5 = (x + 1) % 5 by omega]
  exact chiLane_inverse _ _ _ _ _

theorem chi_injective : Function.Injective chi := by
  intro A B h
  refine lanes_ext A B fun i hi => ?_
  have hlane : laneAt A (i % 5) (i / 5) = laneAt B (i % 5) (i / 5) := by
    rw [laneAt_of_chi A _ _ (by omega) (by omega), h, ← laneAt_of_chi B _ _ (by omega) (by omega)]
  rwa [laneAt, laneAt, show i % 5 + 5 * (i / 5) = i by omega] at hlane

theorem iota_iota (A : Lanes) (r : Nat) : iota (iota A r) r = A := by
  refine lanes_ext _ _ fun i hi => ?_
  rw [lane_iota _ r i hi, lane_iota _ r i hi, lane_iota A r 0 (by decide)]
  by_cases h : i = 0
  · rw [if_pos h, if_pos rfl, BitVec.xor_assoc, BitVec.xor_self, BitVec.xor_zero, h]
  · rw [if_neg h, if_neg h]

theorem iota_injective (r : Nat) : Function.Injective fun A => iota A r :=
  Function.LeftInverse.injective (g := fun A => iota A r) fun A => iota_iota A r

/-! ### Rounds -/

theorem round_injective (r : Nat) : Function.Injective fun A => Machine.round A r :=
  (iota_injective r).comp (chi_injective.comp (pi_injective.comp (rho_injective.comp theta_injective)))

theorem roundsFrom_injective (n : Nat) : ∀ r, Function.Injective (roundsFrom n r) := by
  induction n with
  | zero => exact fun _ => Function.injective_id
  | succ n ih => exact fun r => (ih (r + 1)).comp (round_injective r)

theorem finite_lanes : Finite Lanes :=
  Finite.of_injective (fun (A : Lanes) (i : Fin 25) => (lane A i.val).toFin) fun A B h =>
    table_ext A B 0 fun i => BitVec.toFin_inj.1 (congrFun h i)

/-- The state has finitely many values, so a map of it that is one-to-one is also onto. -/
theorem bijective_of_injective {f : Lanes → Lanes} (h : Function.Injective f) : Function.Bijective f :=
  have := finite_lanes
  Finite.injective_iff_bijective.1 h

/-- V2.4: lane 0 of the permuted zero state. -/
theorem lane_zero_keccakF1600_zeroLanes : lane (keccakF1600 zeroLanes) 0 = 0xF1258F7940E1DDE7 := by
  decide +kernel

theorem keccakF1600_zeroLanes_ne : keccakF1600 zeroLanes ≠ zeroLanes := by
  intro h
  have hlane := lane_zero_keccakF1600_zeroLanes
  rw [h, lane_zeroLanes] at hlane
  exact absurd hlane (by decide)

end Sys2Proof.Machine
end

section
/-! SUPPORT. The claims of 40_permutation_engine.md on rotations and bijections. -/

namespace Sys2Proof.Machine

/-- Settles O55: the parts are the rotation as a number, the bit moved, and the 1 bits counted. -/
theorem rotationMovesBits : Obligations.RotationMovesBits := by
  intro v n hn
  refine ⟨?value, fun i hi => getLsbD_rotl64_add v n i hn hi, card_bits_rotl64 v n hn⟩
  case value =>
    by_cases h : n = 0
    · rw [if_pos h, h, rotl64_zero]
    · rw [if_neg h, toNat_rotl64]

/-- Settles O58: each step is one-to-one on a finite state, hence onto, and rounds are compositions of steps. -/
theorem permutationIsBijective : Obligations.PermutationIsBijective :=
  ⟨bijective_of_injective theta_injective, bijective_of_injective rho_injective,
    bijective_of_injective pi_injective, bijective_of_injective chi_injective,
    fun r => bijective_of_injective (iota_injective r), fun r => bijective_of_injective (round_injective r),
    bijective_of_injective (roundsFrom_injective _ 0), keccakF1600_zeroLanes_ne⟩

end Sys2Proof.Machine
end

section
/-! SUPPORT. The claims of 41_byte_order_adapter.md: lanes as bytes, and the byte view of a block's XOR. -/

namespace Sys2Proof.Machine

/-! ### Lanes and their bytes -/

theorem laneFromBytes_bytesFromLane (L : Lane) : laneFromBytes (bytesFromLane L) = L :=
  lane_ext_bytes _ _ fun k hk => by rw [laneByte_laneFromBytes _ k hk, nth_bytesFromLane L k hk]

theorem bytesFromLane_laneFromBytes (b : Vector Byte 8) : bytesFromLane (laneFromBytes b) = b :=
  table_ext _ _ 0 fun k => by rw [nth_bytesFromLane _ _ k.isLt, laneByte_laneFromBytes b _ k.isLt]

theorem toNat_laneByte (L : Lane) (k : Nat) : (laneByte L k).toNat = (L.toNat >>> (8 * k)) &&& 0xFF := by
  rw [laneByte, BitVec.toNat_setWidth, BitVec.toNat_ushiftRight]
  exact (Nat.and_two_pow_sub_one_eq_mod _ 8).symm

/-- Settles O53: byte k of a lane made of eight bytes is the k-th of them, and its bytes determine a lane. -/
theorem laneBytesAreInverse : Obligations.LaneBytesAreInverse :=
  ⟨laneFromBytes_bytesFromLane, bytesFromLane_laneFromBytes, fun L k hk => by
    rw [nth_bytesFromLane L k hk, toNat_laneByte]⟩

/-! ### The XOR of a block -/

/-- A legal rate is a whole number of lanes. -/
theorem eight_dvd_of_legalRate {rate : Nat} (h : legalRate rate = true) : 8 ∣ rate := by
  have := (legalRate_iff rate).1 h
  omega

/-- Byte j mod 8 of the lane that eight bytes of a block make is the block's byte j. -/
theorem laneByte_laneFromBytes_eightBytes (blk : List Byte) (j : Nat) :
    laneByte (laneFromBytes (eightBytes blk (8 * (j / 8)))) (j % 8) = blk.getD j 0 := by
  have hlt : j % 8 < 8 := Nat.mod_lt j (by decide)
  rw [laneByte_laneFromBytes _ _ hlt, nth_eightBytes _ _ _ hlt, Nat.div_add_mod]

/-- R89 for every rate that is a whole number of lanes. -/
theorem stateByte_xorBlock {rate : Nat} (hrate : 8 ∣ rate) (blk : List Byte) (A : Lanes) (j : Nat)
    (hj : j < 200) : stateByte (xorBlock rate blk A) j =
      if j < rate then stateByte A j ^^^ blk.getD j 0 else stateByte A j := by
  have hlane : j / 8 < laneCount rate ↔ j < rate := by unfold laneCount; omega
  rw [stateByte, lane_xorBlock rate blk A _ (by omega)]
  by_cases h : j < rate
  · rw [if_pos h, if_pos (hlane.2 h), laneByte_xor, laneByte_laneFromBytes_eightBytes, stateByte]
  · rw [if_neg h, if_neg (mt hlane.1 h), stateByte]

/-- Settles O54: byte j is read in lane j div 8, and a legal rate ends where a lane does. -/
theorem xorBlockInByteView : Obligations.XorBlockInByteView := by
  intro rate blk A hrate _
  exact ⟨stateByte_xorBlock (eight_dvd_of_legalRate hrate) blk A, lane_xorBlock_of_le rate blk A⟩

end Sys2Proof.Machine
end

section
/-! SUPPORT. What a sequence of commands does: the input that UPDATEs feed to an Active context, the digest that
FINALIZE writes, and the lanes and context HASH leaves, as functions of the bytes alone (42_sponge_commands.md R103
to R108, R111, R112). -/

namespace Sys2Proof.Machine

/-! ### Sequences of commands -/

theorem execAll_cons_next {i : Instr} {s t : State} (h : exec i s = .next t) (is : List Instr) :
    execAll (i :: is) s = execAll is t := by
  rw [execAll, h]

theorem execAll_append_next {is : List Instr} {s t : State} (h : execAll is s = .next t) (js : List Instr) :
    execAll (is ++ js) s = execAll js t := by
  induction is generalizing s with
  | nil =>
    obtain rfl : s = t := by simpa [execAll] using h
    rfl
  | cons i is ih =>
    rw [execAll] at h
    split at h
    · rename_i u hu
      rw [List.cons_append, execAll_cons_next hu, ih h]
    · cases h
    · cases h

theorem execAll_singleton (i : Instr) (s : State) : execAll [i] s = exec i s := by
  rw [execAll]
  cases exec i s <;> rfl

/-- Outcomes alike in one relation are alike in every weaker one. -/
theorem sameOutcome_mono {R Q : State → State → Prop} (hRQ : ∀ t t', R t t' → Q t t')
    {o o' : Host.Outcome State Fault Refusal} (h : sameOutcome R o o') : sameOutcome Q o o' := by
  rcases sameOutcome_cases h with ⟨t, t', rfl, rfl, hR⟩ | ⟨r, rfl, rfl⟩
  · exact hRQ t t' hR
  · rfl

/-! ### Blocks of the padded message -/

/-- The first k blocks of a sequence are its first k * rate bytes. -/
theorem flatten_map_blockAt (rate : Nat) (m : List Byte) (k : Nat) :
    ((List.range k).map fun i => blockAt rate m i).flatten = m.take (k * rate) := by
  induction k with
  | zero => simp
  | succ k ih =>
    rw [List.range_succ, List.map_append, List.flatten_append, ih, Nat.succ_mul, List.take_add]
    simp [blockAt]

/-- A sequence of q whole blocks is the concatenation of its whole blocks. -/
theorem flatten_wholeBlocks {rate q : Nat} {m : List Byte} (hr : 0 < rate) (hlen : m.length = rate * q) :
    (wholeBlocks rate m).flatten = m := by
  rw [wholeBlocks, flatten_map_blockAt, hlen, Nat.mul_div_cancel_left _ hr, Nat.mul_comm, ← hlen, List.take_length]

theorem length_padMessage {rate : Nat} (hr : 0 < rate) (dsb : Byte) (m : List Byte) :
    (padMessage rate dsb m).length = rate * (m.length / rate + 1) := by
  rw [padMessage_eq_append, List.length_append, length_padTail _ _ hr, Nat.mul_succ]
  have := Nat.div_add_mod m.length rate
  have := Nat.mod_lt m.length hr
  omega

/-- The padding of less than one block, by the room it leaves (R104). -/
theorem padMessage_of_lt {rate : Nat} {m : List Byte} (h : m.length < rate) (dsb : Byte) :
    padMessage rate dsb m =
      if m.length = rate - 1 then m ++ [dsb ||| 0x80]
      else m ++ [dsb] ++ List.replicate (rate - m.length - 2) 0 ++ [0x80] := by
  unfold padMessage
  dsimp only
  rw [Nat.mod_eq_of_lt h]
  by_cases hroom : m.length = rate - 1
  · rw [if_pos hroom, if_pos (by omega)]
  · rw [if_neg hroom, if_neg (by omega)]

/-- PadBlock writes below RATE only. -/
theorem nth_padBlock_of_le (stg : Staging) {n rate k : Nat} (pad : Bool) (h : n < rate) (hk : rate ≤ k) :
    nth (padBlock stg n rate pad) k 0 = nth stg k 0 := by
  by_cases hin : k < 144
  · rw [padBlock, nth_stgOr _ _ _ _ hin, if_neg (by omega), nth_stgOr _ _ _ _ hin, if_neg (by omega),
      nth_stgWrite _ _ _ _ hin, if_neg (by rw [List.length_replicate]; omega)]
  · rw [nth_of_le _ _ _ (by omega), nth_of_le _ _ _ (by omega)]

/-! ### INIT's parameters -/

theorem tabulate_const {α : Type} (n : Nat) (x : α) : (tabulate fun _ : Fin n => x) = Vector.replicate n x :=
  table_ext _ _ x fun i => by rw [nth_tabulate_fin, nth_eq_getElem _ _ _ i.isLt, Vector.getElem_replicate]

/-- A selector of 0 to 7 names a variant: its size field gives RATE, its bit 2 gives PAD (R60, R98). -/
theorem varParams_of_le {var : Selector} (h : var.toNat ≤ 7) :
    ∃ p, varParams var = some p ∧ p.rate = 200 - 2 * ([224, 256, 384, 512].getD (var.toNat % 4) 0 / 8) ∧
      p.pad = decide (4 ≤ var.toNat) := by
  have all : ∀ v : BitVec 4, ∀ q ∈ varParams v,
      q.rate = 200 - 2 * ([224, 256, 384, 512].getD (v.toNat % 4) 0 / 8) ∧ q.pad = decide (4 ≤ v.toNat) := by decide
  obtain ⟨p, hp⟩ := Option.ne_none_iff_exists'.1 (mt (varParams_none_iff var).1 (Nat.not_lt.2 h))
  exact ⟨p, hp, all var p hp⟩

/-! ### Effects and the status port -/

theorem updateContext_setStatus (src len : Nat) (s : State) (st : Option Status) :
    updateContext src len { s with status := st } = { updateContext src len s with status := st } := by
  unfold updateContext
  dsimp only
  split_ifs <;> rfl

theorem finalizeContext_setStatus (s : State) (st : Option Status) :
    finalizeContext { s with status := st } = { finalizeContext s with status := st } := by
  unfold finalizeContext
  dsimp only
  split_ifs <;> rfl

theorem writeDigest_setStatus (dst : Nat) (s : State) (st : Option Status) :
    writeDigest dst { s with status := st } = { writeDigest dst s with status := st } := rfl

/-! ### Feeding input -/

/-- State `t` is `s` after UPDATEs that fed it the bytes `x`: they are absorbed after the bytes already staged, and
nothing but A, STG, BUFLEN and the status is new. -/
structure Fed (s t : State) (x : List Byte) : Prop where
  absorbed : Absorbed s t (staged s.stg s.bufLen.toNat ++ x)
  frame : t = { s with a := t.a, stg := t.stg, bufLen := t.bufLen, status := t.status }

/-- The fields UPDATEs keep. -/
theorem Fed.keeps {s t : State} {x : List Byte} (h : Fed s t x) :
    t.rate = s.rate ∧ t.fin = s.fin ∧ t.pad = s.pad ∧ t.valid = s.valid ∧ t.hm = s.hm ∧ t.hmAdmit = s.hmAdmit ∧
      t.port = s.port := by
  rw [h.frame]
  exact ⟨rfl, rfl, rfl, rfl, rfl, rfl, rfl⟩

section
variable {s : State} (hok : s.contextOk = true) (hv : s.valid = true)
include hok hv

/-- A legal context stages BUFLEN bytes. -/
theorem length_staged_bufLen : (staged s.stg s.bufLen.toNat).length = s.bufLen.toNat := by
  obtain ⟨hr, hb, -⟩ := (contextOk_iff s).1 hok hv
  have := (legalRate_iff _).1 hr
  exact length_staged _ _ (by omega)

/-- Feeding nothing: the staged bytes are less than a block. -/
theorem Fed.refl : Fed s s [] := by
  obtain ⟨-, hb, -⟩ := (contextOk_iff s).1 hok hv
  have hlen := length_staged_bufLen hok hv
  refine ⟨?_, rfl⟩
  rw [List.append_nil]
  refine ⟨?a, (remainder_of_lt (by omega)).symm, ?bufLen⟩
  case a => rw [wholeBlocks_of_lt (by omega), absorbBlocks_nil]
  case bufLen => rw [hlen, Nat.mod_eq_of_lt hb]

/-- Feeding `x` and then `y` is feeding `x ++ y`. -/
theorem Fed.trans {t u : State} {x y : List Byte} (h : Fed s t x) (h' : Fed t u y) : Fed s u (x ++ y) := by
  obtain ⟨hr, hb, -⟩ := (contextOk_iff s).1 hok hv
  have h0 : 0 < s.rate.toNat := by omega
  obtain ⟨hrate, -⟩ := h.keeps
  obtain ⟨⟨ha, hstaged, hn⟩, hframe⟩ := h
  obtain ⟨⟨ha', hstaged', hn'⟩, hframe'⟩ := h'
  obtain ⟨hblocks, hrem⟩ := absorbBlocks_split h0 s.a (staged s.stg s.bufLen.toNat ++ x) y
  rw [List.append_assoc] at hblocks hrem
  rw [hrate, hstaged] at ha' hstaged' hn'
  refine ⟨⟨?a, hstaged'.trans hrem, ?bufLen⟩, ?frame⟩
  case a => rw [ha', ha, hblocks]
  case bufLen => rw [hn', ← length_remainder, hrem, length_remainder]
  case frame => rw [hframe', hframe]

theorem Fed.contextOk {t : State} {x : List Byte} (hf : s.fin = false) (h : Fed s t x) : t.contextOk = true := by
  obtain ⟨hr, hb, -⟩ := (contextOk_iff s).1 hok hv
  obtain ⟨hrate, hfin, -⟩ := h.keeps
  refine (contextOk_iff t).2 fun _ => ?_
  rw [hrate, h.absorbed.bufLen, hfin, hf]
  exact ⟨hr, Nat.mod_lt _ (by omega), nofun⟩

theorem updateContext_fed (src len : Nat) : Fed s (updateContext src len s) (memRead s.hm src len) := by
  obtain ⟨hr, hb, -⟩ := (contextOk_iff s).1 hok hv
  refine ⟨updateContext_absorbed s src len hr hb, ?_⟩
  rw [updateContext_status]
  exact updateContext_eq s src len

/-- An UPDATE within its checks feeds its source bytes. -/
theorem exec_update_fed (hf : s.fin = false) {src len : Nat} (hu : usable s src len) :
    ∃ t, exec (.update src len) s = .next t ∧ t.status = some .ok ∧ Fed s t (memRead s.hm src len) := by
  have h := updateContext_fed hok hv src len
  exact ⟨_, exec_update_next hv hf hu, rfl, ⟨h.absorbed.a, h.absorbed.staged, h.absorbed.bufLen⟩,
    congrArg (fun u : State => { u with status := some .ok }) h.frame⟩

end

/-- UPDATEs feed the bytes of their chunks, one after the other (R112). -/
theorem execAll_updates_fed {s : State} (hok : s.contextOk = true) (hv : s.valid = true) (hf : s.fin = false)
    {chunks : List (Nat × Nat)} (hu : ∀ c ∈ chunks, usable s c.1 c.2) :
    ∃ t, execAll (updates chunks) s = .next t ∧ Fed s t (gather s.hm chunks) := by
  induction chunks generalizing s with
  | nil => exact ⟨s, rfl, Fed.refl hok hv⟩
  | cons c chunks ih =>
    obtain ⟨hc, hcs⟩ := List.forall_mem_cons.1 hu
    obtain ⟨t, ht, -, hfed⟩ := exec_update_fed hok hv hf hc
    obtain ⟨-, hfin, -, hvalid, hm, hadm, -⟩ := hfed.keeps
    obtain ⟨u, hrun, hrest⟩ := ih (hfed.contextOk hok hv hf) (hvalid.trans hv) (hfin.trans hf)
      (by simpa only [usable, hadm] using hcs)
    rw [hm] at hrest
    exact ⟨u, (execAll_cons_next ht _).trans hrun, hfed.trans hok hv hrest⟩

/-- The bytes fed say the whole context: two ways of feeding them leave states alike but for stale staging bytes and
the status (R112). -/
theorem Fed.sameView {s t t' : State} {x : List Byte} (h : Fed s t x) (h' : Fed s t' x) : SameView t t' := by
  obtain ⟨hrate, hfin, hpad, hvalid, hm, hadm, hport⟩ := h.keeps
  obtain ⟨hrate', hfin', hpad', hvalid', hm', hadm', hport'⟩ := h'.keeps
  refine ⟨(context_eq_iff t t').2 ⟨?a, ?staged, ?bufLen, hrate.trans hrate'.symm, hfin.trans hfin'.symm,
    hpad.trans hpad'.symm, hvalid.trans hvalid'.symm⟩, hm.trans hm'.symm, hadm.trans hadm'.symm,
    hport.trans hport'.symm⟩
  case a => exact h.absorbed.a.trans h'.absorbed.a.symm
  case staged => exact h.absorbed.staged.trans h'.absorbed.staged.symm
  case bufLen => exact BitVec.eq_of_toNat_eq (h.absorbed.bufLen.trans h'.absorbed.bufLen.symm)

/-! ### The sponge as a function -/

/-- The lanes after the padded message `m` of a variant (R111). -/
def spongeLanes (p : VariantParams) (m : List Byte) : Lanes :=
  absorbBlocks p.rate (wholeBlocks p.rate (padMessage p.rate (domainByte p.pad) m)) zeroLanes

theorem extract_spongeLanes (p : VariantParams) (m : List Byte) : extract (spongeLanes p m) p.dlen = digestOf p m := rfl

/-- Closing a context made by INIT and fed the bytes `m` leaves the lanes of the padded message (R111). -/
theorem Fed.finalizeContext_initContext {var : Selector} {p : VariantParams} (hp : varParams var = some p)
    {s t : State} {m : List Byte} (h : Fed (initContext p s) t m) :
    finalizeContext t =
      { s with
        a := spongeLanes p m, stg := (finalizeContext t).stg, bufLen := 0, rate := BitVec.ofNat 8 p.rate, fin := true
        pad := p.pad, valid := true, status := t.status } := by
  have hlegal := (varParams_facts hp).1
  have h0 : 0 < p.rate := by
    have := (legalRate_iff _).1 hlegal
    omega
  obtain ⟨hrate, hfin, hpad, hvalid, hm, hadm, hport⟩ := h.keeps
  obtain ⟨ha, hstaged, hn⟩ := h.absorbed
  have hr : t.rate.toNat = p.rate := by rw [hrate, initContext_rate, varParams_rate_toNat hp]
  rw [initContext_rate, varParams_rate_toNat hp, initContext_bufLen, show (0 : BitVec 8).toNat = 0 from rfl, staged_zero,
    List.nil_append] at ha hstaged hn
  rw [finalizeContext_active (hr.symm ▸ hlegal) (by rw [hr, hn]; exact Nat.mod_lt _ h0) hfin]
  apply state_ext
  case h1 => simp only [hr, hpad, hstaged, ha, initContext_pad, initContext_a, absorbBlock_padMessage _ _ h0, spongeLanes]
  all_goals simp [hrate, hpad, hvalid, hm, hadm, hport]

/-- The context HASH leaves is a function of its variant and its source bytes (R108, R111). -/
theorem hashContext_eq {var : Selector} {p : VariantParams} (hp : varParams var = some p) (src len : Nat)
    (s : State) : ∃ stg : Staging, finalizeContext (updateContext src len (initContext p s)) =
      { s with
        a := spongeLanes p (memRead s.hm src len), stg := stg, bufLen := 0, rate := BitVec.ofNat 8 p.rate, fin := true
        pad := p.pad, valid := true } := by
  have h := (updateContext_fed (initContext_contextOk hp s) rfl src len).finalizeContext_initContext hp
  rw [updateContext_status] at h
  exact ⟨_, h⟩

/-! ### The digest in memory -/

theorem memRead_writeDigest {u : State} (hwf : u.hm.wf = true) {dst : Nat} (htop : dst + u.dlen ≤ Config.addrTop) :
    memRead (writeDigest dst u).hm dst u.dlen = extract u.a u.dlen := by
  have := memRead_memWrite hwf dst (extract u.a u.dlen) (by simpa using htop)
  rwa [length_extract] at this

/-- FINALIZE with a buffer, within its checks: the context closed, its digest at DST and no other byte changed (R105,
R106). -/
theorem exec_finalize_buffer_writes {s : State} (hmem : s.memoryOk = true) (hv : s.valid = true) {cap dst : Nat}
    (hc : s.dlen ≤ cap) (hu : usable s dst s.dlen) :
    ∃ t, exec (.finalize (.buffer cap dst)) s = .next t ∧ memRead t.hm dst s.dlen = extract t.a s.dlen ∧
      sameOutside dst s.dlen s t ∧ t = { finalizeContext s with hm := t.hm, status := some .ok } := by
  obtain ⟨hwf, -⟩ := (memoryOk_iff s).1 hmem
  have hlen := finalizeContext_dlen s
  have hread := memRead_writeDigest (u := finalizeContext s) (by simpa using hwf) (hlen.symm ▸ hu.1)
  have hout := writeDigest_sameOutside hwf (finalizeContext_hm s) (hlen.symm ▸ hu.1)
  rw [hlen] at hread hout
  exact ⟨_, exec_finalize_buffer_next hv hc hu, hread, hout, rfl⟩

/-- HASH within its checks: the lanes of the padded source, their digest at DST, and no other byte changed (R108,
R111). -/
theorem exec_hash_writes {s : State} {var : Selector} {p : VariantParams} {src len dst : Nat}
    (hmem : s.memoryOk = true) (hp : varParams var = some p) (hs : usable s src len) (hd : usable s dst p.dlen) :
    ∃ t, exec (.hash var src len dst) s = .next t ∧ t.a = spongeLanes p (memRead s.hm src len) ∧
      memRead t.hm dst p.dlen = digestOf p (memRead s.hm src len) ∧ sameOutside dst p.dlen s t ∧
      t = { s with
        a := t.a, stg := t.stg, bufLen := 0, rate := BitVec.ofNat 8 p.rate, fin := true, pad := p.pad,
        valid := true, hm := t.hm, status := some .ok } := by
  obtain ⟨hwf, -⟩ := (memoryOk_iff s).1 hmem
  have hdlen := hashContext_dlen hp src len s
  have hexec := exec_hash_next hp hs hd
  obtain ⟨stg, hclosed⟩ := hashContext_eq hp src len s
  generalize finalizeContext (updateContext src len (initContext p s)) = u at *
  have ha : u.a = spongeLanes p (memRead s.hm src len) := by rw [hclosed]
  have hm : u.hm = s.hm := by rw [hclosed]
  have hread := memRead_writeDigest (u := u) (dst := dst) (hm.symm ▸ hwf) (hdlen.symm ▸ hd.1)
  have hout := writeDigest_sameOutside (u := u) (dst := dst) hwf hm (hdlen.symm ▸ hd.1)
  rw [hdlen] at hread hout
  refine ⟨_, hexec, ha, ?digest, hout, ?frame⟩
  case digest => exact hread.trans (by rw [ha, extract_spongeLanes])
  case frame => apply state_ext <;> simp [hclosed]

/-- A FINALIZE with a buffer that ends OK passed its checks. -/
theorem exec_finalize_buffer_ok {s t : State} {cap dst : Nat} (ht : exec (.finalize (.buffer cap dst)) s = .next t)
    (hst : t.status = some .ok) : s.valid = true ∧ s.dlen ≤ cap ∧ usable s dst s.dlen := by
  cases exec_next_cases ht with
  | failed _ e he => exact absurd (Option.some.inj hst) he
  | write _ _ hv hc hu => exact ⟨hv, hc, hu⟩

/-- A FINALIZE that ends OK leaves a Finalized context. -/
theorem exec_finalize_ok {s t : State} {out : OutBuffer} (ht : exec (.finalize out) s = .next t)
    (hst : t.status = some .ok) : t.valid = true ∧ t.fin = true := by
  cases exec_next_cases ht with
  | failed _ e he => exact absurd (Option.some.inj hst) he
  | close hv => exact ⟨by simpa using hv, by simp⟩
  | write _ _ hv => exact ⟨by simpa using hv, by simp⟩

/-! ### Conditions -/

theorem condition_empty_iff (s : State) : s.condition = .empty ↔ s.valid = false := by
  unfold State.condition
  cases s.valid <;> cases s.fin <;> simp

theorem condition_finalized_iff (s : State) : s.condition = .finalized ↔ s.valid = true ∧ s.fin = true := by
  unfold State.condition
  cases s.valid <;> cases s.fin <;> simp

theorem condition_congr {s t : State} (hv : t.valid = s.valid) (hf : t.fin = s.fin) : t.condition = s.condition := by
  rw [State.condition, State.condition, hv, hf]

end Sys2Proof.Machine
end

section
/-! SUPPORT. The claims of 42_sponge_commands.md. -/

namespace Sys2Proof.Machine

/-! ### INIT -/

/-- Settles O18: the selector names a variant or none. -/
theorem initStartsFreshContext : Obligations.InitStartsFreshContext := by
  intro s var
  constructor
  case left =>
    intro hvar
    obtain ⟨p, hp, hrate, hpad⟩ := varParams_of_le hvar
    rw [exec_init_next hp, initContext, zeroLanes, tabulate_const, tabulate_const, hrate, hpad]
  case right =>
    intro hvar
    rw [exec, execInit, (varParams_none_iff var).2 hvar, raise_eq]

/-! ### UPDATE -/

/-- Settles O19: an UPDATE feeds its source bytes. -/
theorem updateAbsorbsClosedForm : Obligations.UpdateAbsorbsClosedForm := by
  intro s src len hok hv hf hu
  obtain ⟨t, ht, hst, ⟨ha, hstaged, hn⟩, hframe⟩ := exec_update_fed hok hv hf hu
  rw [List.length_append, length_staged_bufLen hok hv, length_memRead] at hn
  exact ⟨t, ht, ha, hstaged, hn, hst ▸ hframe⟩

/-- Settles O21: less than a block has no whole block and is its own remainder. -/
theorem updateBelowOneBlockOnlyStages : Obligations.UpdateBelowOneBlockOnlyStages := by
  intro s src len hok hv hf hu hlt
  have hlen : (staged s.stg s.bufLen.toNat ++ memRead s.hm src len).length < s.rate.toNat := by
    rwa [List.length_append, length_staged_bufLen hok hv, length_memRead]
  obtain ⟨t, ht, hst, ⟨ha, hstaged, -⟩, hframe⟩ := exec_update_fed hok hv hf hu
  rw [wholeBlocks_of_lt hlen, absorbBlocks_nil] at ha
  rw [remainder_of_lt hlen] at hstaged
  rw [hst, ha] at hframe
  exact ⟨t, ht, ha, hstaged, hframe⟩

/-- Settles O22: a FINALIZE that ends OK leaves a Finalized context, which every UPDATE ignores. -/
theorem updateAfterFinalizeIsNoOp : Obligations.UpdateAfterFinalizeIsNoOp := by
  refine ⟨fun s src len hv hf => exec_update_finalized src len hv hf, fun s t out src len ht hst => ?_⟩
  obtain ⟨hv, hf⟩ := exec_finalize_ok ht hst
  have hupdate : exec (.update src len) t = .next t := by
    rw [exec_update_finalized src len hv hf, ← hst]
  exact ⟨hupdate, fun out' => by rw [execAll_cons_next hupdate, execAll_singleton]⟩

/-- Settles O23: both runs of UPDATEs feed the same bytes, so the states they reach differ in stale staging bytes
and the status only, which no FINALIZE reads. -/
theorem streamingEquivalence : Obligations.StreamingEquivalence := by
  intro s chunks chunks' hinv hv hf hu hu' hbytes
  obtain ⟨hok, -⟩ := (inv_iff s).1 hinv
  obtain ⟨t, ht, hfed⟩ := execAll_updates_fed hok hv hf hu
  obtain ⟨t', ht', hfed'⟩ := execAll_updates_fed hok hv hf hu'
  have hview := hfed.sameView (hbytes.symm ▸ hfed')
  refine ⟨t, t', ht, ht', hview.context, fun out => ?_⟩
  refine sameOutcome_mono ?_ (hview.exec_alike (hfed.contextOk hok hv hf) (.finalize out))
  rintro u u' ⟨hc, hm, -, -, hst⟩
  exact ⟨hm, hst, hc⟩

/-! ### FINALIZE -/

/-- Settles O24: PadBlock makes of the staged bytes their padded message. -/
theorem padBlockBuildsPaddedBlock : Obligations.PadBlockBuildsPaddedBlock := by
  intro stg n rate pad hn hrate
  have hlen := length_staged stg n (by omega)
  have hboth : (domainByte pad ||| 0x80 : Byte) = if pad then 0x86 else 0x81 := by cases pad <;> rfl
  refine ⟨?_, fun k hk => nth_padBlock_of_le stg pad hn hk⟩
  rw [staged_padBlock stg n rate pad hn hrate, padMessage_of_lt (hlen.symm ▸ hn), hlen, hboth, domainByte]

/-- Settles O25: closing an Active context absorbs its padded staged bytes, and the digest write is of the new
lanes. -/
theorem finalizeActiveWritesDigest : Obligations.FinalizeActiveWritesDigest := by
  intro s cap dst hinv hv hf hc hu
  obtain ⟨hok, hmem⟩ := (inv_iff s).1 hinv
  obtain ⟨hr, hb, -⟩ := (contextOk_iff s).1 hok hv
  obtain ⟨t, ht, hread, hout, hframe⟩ := exec_finalize_buffer_writes hmem hv hc hu
  rw [finalizeContext_active hr hb hf] at hframe
  refine ⟨t, ht, ?a, hread, hout, ?frame⟩
  case a => rw [hframe]
  case frame => rw [hframe]

/-- Settles O26: closing a Finalized context changes nothing. -/
theorem finalizeFinalizedRewritesDigest : Obligations.FinalizeFinalizedRewritesDigest := by
  intro s cap dst hinv hv hf hc hu
  obtain ⟨-, hmem⟩ := (inv_iff s).1 hinv
  obtain ⟨t, ht, hread, hout, hframe⟩ := exec_finalize_buffer_writes hmem hv hc hu
  rw [finalizeContext_of_fin s hf] at hframe
  have ha : t.a = s.a := by rw [hframe]
  exact ⟨t, ht, ha ▸ hread, hout, hframe⟩

/-- Settles O27: without a buffer FINALIZE is its effect on the context. -/
theorem finalizeWithoutBufferWritesNoMemory : Obligations.FinalizeWithoutBufferWritesNoMemory := by
  intro s hok hv
  obtain ⟨hr, hb, -⟩ := (contextOk_iff s).1 hok hv
  rw [exec_finalize_noBuffer_next hv]
  constructor
  case left =>
    intro hf
    have hclosed := finalizeContext_active hr hb hf
    exact ⟨_, rfl, congrArg State.a hclosed, by rw [hclosed]⟩
  case right =>
    intro hf
    rw [finalizeContext_of_fin s hf]

/-- Settles O28: the first FINALIZE leaves a Finalized context, whose lanes the second writes again. -/
theorem finalizeIsIdempotent : Obligations.FinalizeIsIdempotent := by
  intro s t cap dst cap' dst' hinv ht hst hc' hu'
  obtain ⟨-, hmem⟩ := (inv_iff s).1 hinv
  obtain ⟨hv, hc, hu⟩ := exec_finalize_buffer_ok ht hst
  obtain ⟨hvt, hft⟩ := exec_finalize_ok ht hst
  obtain ⟨t₁, ht₁, hread, -, hframe⟩ := exec_finalize_buffer_writes hmem hv hc hu
  obtain rfl : t = t₁ := Host.Outcome.next.inj (ht.symm.trans ht₁)
  have hdlen : t.dlen = s.dlen := by rw [hframe, ← finalizeContext_dlen s]; rfl
  have hadm : t.hmAdmit = s.hmAdmit := by rw [hframe, ← finalizeContext_hmAdmit s]
  obtain ⟨u, hexec, hread', hout', hframe'⟩ :=
    exec_finalize_buffer_writes (exec_memoryOk hmem ht) hvt (hdlen.symm ▸ hc')
      (by simpa only [usable, hdlen, hadm] using hu')
  rw [hdlen] at hread' hout'
  rw [finalizeContext_of_fin t hft, ← hst] at hframe'
  have ha : u.a = t.a := by rw [hframe']
  have hsame : memRead u.hm dst' s.dlen = memRead t.hm dst s.dlen := by rw [hread', hread, ha]
  refine ⟨u, hexec, hsame, hout', hframe', ?kept⟩
  case kept =>
    rintro (rfl | hdisjoint)
    · exact hsame
    · exact memRead_congr fun k hk => hout' _ (by omega)

/-! ### The digest as a function -/

/-- Settles O29: the padding fills the last block, so whole blocks are all there is. -/
theorem paddedMessageFillsWholeBlocks : Obligations.PaddedMessageFillsWholeBlocks := by
  intro rate dsb m hr
  have hlen := length_padMessage hr dsb m
  exact ⟨hlen, by rw [length_wholeBlocks, hlen, Nat.mul_div_cancel_left _ hr], flatten_wholeBlocks hr hlen⟩

/-- Settles O30: the UPDATEs feed the chunks to the context INIT makes, and FINALIZE closes and writes it. -/
theorem streamedDigestIsSpongeFunction : Obligations.StreamedDigestIsSpongeFunction := by
  intro s var p chunks cap dst hmem hp hu hc hd
  have hinit : exec (.init var) s = .next (initContext p { s with status := some .ok }) := exec_init_next hp s
  have hok := initContext_contextOk hp { s with status := some .ok }
  obtain ⟨t, hrun, hfed⟩ := execAll_updates_fed hok rfl rfl hu
  obtain ⟨hrate, -, -, hvalid, hm, hadm, -⟩ := hfed.keeps
  rw [initContext_hm] at hm
  rw [initContext_hmAdmit] at hadm
  have hdlen : t.dlen = p.dlen := by rw [State.dlen, hrate, ← State.dlen, initContext_dlen hp]
  obtain ⟨u, hexec, hread, hout, hframe⟩ := exec_finalize_buffer_writes ((memoryOk_congr hm hadm).trans hmem) hvalid
    (hdlen.symm ▸ hc) (by simpa only [usable, hdlen, hadm] using hd)
  rw [hdlen] at hread hout
  rw [hfed.finalizeContext_initContext hp] at hframe
  refine ⟨u, ?run, ?digest, ?outside, ?finalized, by rw [hframe]⟩
  case run =>
    rw [List.append_assoc, List.singleton_append, execAll_cons_next hinit, execAll_append_next hrun,
      execAll_singleton, hexec]
  case digest =>
    have ha : u.a = spongeLanes p (gather s.hm chunks) := by rw [hframe]; rfl
    rw [hread, ha, extract_spongeLanes]
  case outside => exact fun k hk => (hout k hk).trans (by rw [hm])
  case finalized => exact (condition_finalized_iff u).2 (by rw [hframe]; exact ⟨rfl, rfl⟩)

/-! ### HASH -/

/-- Settles O31: HASH reads its source before it writes the digest. -/
theorem hashWritesDigestOfSource : Obligations.HashWritesDigestOfSource := by
  intro s var p src len dst hmem hp hs hd
  obtain ⟨t, ht, ha, hread, hout, hframe⟩ := exec_hash_writes hmem hp hs hd
  exact ⟨t, ht, hread, hout, by rw [ha, extract_spongeLanes], hframe⟩

/-- Settles O32: each of the three commands passes its checks after the one before it. -/
theorem hashComposesInitUpdateFinalize : Obligations.HashComposesInitUpdateFinalize := by
  intro s var p src len dst hp hs hd
  have hdlen := (updateContext_dlen src len (initContext p s)).trans (initContext_dlen hp s)
  have hupdate := exec_update_next (s := { initContext p s with status := some .ok }) rfl rfl hs
  have hdst : usable (updateContext src len (initContext p s)) dst (updateContext src len (initContext p s)).dlen := by
    simpa only [usable, hdlen, updateContext_hmAdmit, initContext_hmAdmit] using hd
  have hfinalize := exec_finalize_buffer_next (s := { updateContext src len (initContext p s) with status := some .ok })
    (updateContext_valid _ _ _) hdlen.le hdst
  rw [updateContext_setStatus] at hupdate
  rw [finalizeContext_setStatus, writeDigest_setStatus] at hfinalize
  refine ⟨_, exec_hash_next hp hs hd, ?_⟩
  rw [execAll_cons_next (exec_init_next hp s), execAll_cons_next hupdate, execAll_singleton]
  exact hfinalize

/-- Settles O33: digest and context are functions of the source bytes. -/
theorem hashDependsOnMessageOnly : Obligations.HashDependsOnMessageOnly := by
  intro s s' var p src src' len dst dst' hmem hmem' hp hs hd hs' hd' hbytes
  obtain ⟨t, ht, ha, hread, -, hframe⟩ := exec_hash_writes hmem hp hs hd
  obtain ⟨t', ht', ha', hread', -, hframe'⟩ := exec_hash_writes hmem' hp hs' hd'
  rw [← hbytes] at ha' hread'
  refine ⟨t, t', ht, ht', hread.trans hread'.symm, ?context⟩
  case context =>
    refine (context_eq_iff t t').2 ⟨ha.trans ha'.symm, ?_⟩
    rw [hframe, hframe']
    exact ⟨by simp, rfl, rfl, rfl, rfl, rfl⟩

/-! ### Conditions -/

/-- Settles O44, by everything a command can have done. -/
theorem transitionTable : Obligations.TransitionTable := by
  intro i s t ht
  refine ⟨?error, ?ok, ?empty⟩
  case error =>
    intro hst
    cases exec_next_cases ht with
    | failed => rfl
    | _ => exact absurd rfl hst
  case ok =>
    intro hst
    cases exec_next_cases ht with
    | failed _ e he => exact absurd (Option.some.inj hst) he
    | init => exact (condition_active_iff _).2 ⟨rfl, rfl⟩
    | ignored _ _ hv => exact ⟨(condition_ne_empty_iff s).2 hv, rfl⟩
    | update _ _ hv =>
      exact ⟨(condition_ne_empty_iff s).2 hv, condition_congr (updateContext_valid _ _ _) (updateContext_fin _ _ _)⟩
    | close hv => exact ⟨(condition_ne_empty_iff s).2 hv, (condition_finalized_iff _).2 (by simpa using hv)⟩
    | write _ _ hv => exact ⟨(condition_ne_empty_iff s).2 hv, (condition_finalized_iff _).2 (by simpa using hv)⟩
    | hash => exact (condition_finalized_iff _).2 (by simp)
  case empty =>
    intro hempty
    have hv := (condition_empty_iff s).1 hempty
    cases i with
    | init | hash => trivial
    | update src len =>
      rw [exec_update_noContext src len hv, raise_next_iff] at ht
      rw [ht]
    | finalize out =>
      rw [exec_finalize_noContext out hv, raise_next_iff] at ht
      rw [ht]

end Sys2Proof.Machine
end

section
/-! SUPPORT. The status each command ends with, said once: the first check that fails, or none (60_exceptions.md
R128), and what a step does where no command runs (R121, R133). -/

namespace Sys2Proof.Machine

/-! ### The first failing check -/

/-- How a command on `s` ends, by the first of its checks that fails (R128): one constructor per check of a command
and one per way to pass them all, each with the checks before it passed. -/
inductive EndsWith (s : State) : Instr → Status → Prop where
  | initSelector {var : Selector} (hvar : 7 < var.toNat) : EndsWith s (.init var) .configurationError
  | init {var : Selector} (hvar : var.toNat ≤ 7) : EndsWith s (.init var) .ok
  | updateContext {src len : Nat} (hv : s.valid = false) : EndsWith s (.update src len) .noContextError
  | updateFinalized {src len : Nat} (hv : s.valid = true) (hf : s.fin = true) : EndsWith s (.update src len) .ok
  | updateRange {src len : Nat} (hv : s.valid = true) (hf : s.fin = false) (hr : Config.addrTop < src + len) :
      EndsWith s (.update src len) .addressRangeError
  | update {src len : Nat} (hv : s.valid = true) (hf : s.fin = false) (hr : src + len ≤ Config.addrTop) :
      EndsWith s (.update src len) .ok
  | finalizeContext {out : OutBuffer} (hv : s.valid = false) : EndsWith s (.finalize out) .noContextError
  | finalizeNoBuffer (hv : s.valid = true) : EndsWith s (.finalize .noBuffer) .ok
  | finalizeSize {cap dst : Nat} (hv : s.valid = true) (hc : cap < s.dlen) :
      EndsWith s (.finalize (.buffer cap dst)) .bufferTooSmallError
  | finalizeRange {cap dst : Nat} (hv : s.valid = true) (hc : s.dlen ≤ cap) (hr : Config.addrTop < dst + s.dlen) :
      EndsWith s (.finalize (.buffer cap dst)) .addressRangeError
  | finalizeBuffer {cap dst : Nat} (hv : s.valid = true) (hc : s.dlen ≤ cap) (hr : dst + s.dlen ≤ Config.addrTop) :
      EndsWith s (.finalize (.buffer cap dst)) .ok
  | hashSelector {var : Selector} {src len dst : Nat} (hvar : 7 < var.toNat) :
      EndsWith s (.hash var src len dst) .configurationError
  | hashRange {var : Selector} {p : VariantParams} {src len dst : Nat} (hp : varParams var = some p)
      (hr : Config.addrTop < src + len ∨ Config.addrTop < dst + p.dlen) :
      EndsWith s (.hash var src len dst) .addressRangeError
  | hash {var : Selector} {p : VariantParams} {src len dst : Nat} (hp : varParams var = some p)
      (hs : src + len ≤ Config.addrTop) (hd : dst + p.dlen ≤ Config.addrTop) :
      EndsWith s (.hash var src len dst) .ok

/-- A valid selector is one of 0 to 7 (R60). -/
theorem toNat_le_of_varParams {var : Selector} {p : VariantParams} (hp : varParams var = some p) : var.toNat ≤ 7 := by
  rw [← not_lt, ← varParams_none_iff, hp]
  exact Option.some_ne_none p

/-- A command ends with the error of its first failing check, completes when every check passes, or is refused. -/
theorem exec_cases (i : Instr) (s : State) :
    (∃ e, e ≠ .ok ∧ EndsWith s i e ∧ exec i s = raise e s) ∨
    (EndsWith s i .ok ∧ ∃ u, exec i s = complete u) ∨
    exec i s = .refused .unbackedAddress := by
  match i with
  | .init var =>
    rcases execInit_cases var s with ⟨hvar, e⟩ | ⟨p, hp, e⟩
    · exact .inl ⟨_, by decide, .initSelector hvar, e⟩
    · exact .inr (.inl ⟨.init (toNat_le_of_varParams hp), _, e⟩)
  | .update src len =>
    rcases execUpdate_cases src len s with
      ⟨hv, e⟩ | ⟨hv, hf, e⟩ | ⟨hv, hf, hr, e⟩ | ⟨hv, hf, hr, -, e⟩ | ⟨-, -, -, -, e⟩
    · exact .inl ⟨_, by decide, .updateContext hv, e⟩
    · exact .inr (.inl ⟨.updateFinalized hv hf, _, e⟩)
    · exact .inl ⟨_, by decide, .updateRange hv hf hr, e⟩
    · exact .inr (.inl ⟨.update hv hf hr, _, e⟩)
    · exact .inr (.inr e)
  | .finalize .noBuffer =>
    rcases execFinalize_noBuffer_cases s with ⟨hv, e⟩ | ⟨hv, e⟩
    · exact .inl ⟨_, by decide, .finalizeContext hv, e⟩
    · exact .inr (.inl ⟨.finalizeNoBuffer hv, _, e⟩)
  | .finalize (.buffer cap dst) =>
    rcases execFinalize_buffer_cases cap dst s with
      ⟨hv, e⟩ | ⟨hv, hc, e⟩ | ⟨hv, hc, hr, e⟩ | ⟨hv, hc, hr, -, e⟩ | ⟨-, -, -, -, e⟩
    · exact .inl ⟨_, by decide, .finalizeContext hv, e⟩
    · exact .inl ⟨_, by decide, .finalizeSize hv hc, e⟩
    · exact .inl ⟨_, by decide, .finalizeRange hv hc hr, e⟩
    · exact .inr (.inl ⟨.finalizeBuffer hv hc hr, _, e⟩)
    · exact .inr (.inr e)
  | .hash var src len dst =>
    rcases execHash_cases var src len dst s with
      ⟨hvar, e⟩ | ⟨p, hp, ⟨hr, e⟩ | ⟨hs, hd, -, -, e⟩ | ⟨-, -, -, e⟩⟩
    · exact .inl ⟨_, by decide, .hashSelector hvar, e⟩
    · exact .inl ⟨_, by decide, .hashRange hp hr, e⟩
    · exact .inr (.inl ⟨.hash hp hs hd, _, e⟩)
    · exact .inr (.inr e)

/-- A command with a next state returns a status, that of its first failing check. -/
theorem exec_next_status {i : Instr} {s t : State} (ht : exec i s = .next t) :
    ∃ st, t.status = some st ∧ EndsWith s i st := by
  rcases exec_cases i s with ⟨e, -, hends, hexec⟩ | ⟨hends, u, hexec⟩ | hexec
  · rw [hexec, raise_next_iff] at ht
    exact ⟨e, by rw [ht], hends⟩
  · rw [hexec, complete_next_iff] at ht
    exact ⟨.ok, by rw [ht], hends⟩
  · cases hexec.symm.trans ht

theorem endsWith_of_status {i : Instr} {s t : State} {st : Status} (ht : exec i s = .next t)
    (hst : t.status = some st) : EndsWith s i st := by
  obtain ⟨st', hst', hends⟩ := exec_next_status ht
  rwa [Option.some.inj (hst.symm.trans hst')]

/-- A command whose checks fail ends with the first one's error, and only the status is new (R124). -/
theorem exec_of_endsWith_error {i : Instr} {s : State} {e : Status} (h : EndsWith s i e) (he : e ≠ .ok) :
    exec i s = .next { s with status := some e } := by
  rw [← raise_eq]
  cases h with
  | init | updateFinalized | update | finalizeNoBuffer | finalizeBuffer | hash => exact absurd rfl he
  | initSelector hvar => rw [exec, execInit, (varParams_none_iff _).2 hvar]
  | updateContext hv => exact exec_update_noContext _ _ hv
  | updateRange hv hf hr => simp [exec, execUpdate, hv, hf, pastTop, hr]
  | finalizeContext hv => exact exec_finalize_noContext _ hv
  | finalizeSize hv hc => simp [exec, execFinalize, hv, hc]
  | finalizeRange hv hc hr => simp [exec, execFinalize, hv, Nat.not_lt.2 hc, pastTop, hr]
  | hashSelector hvar => rw [exec, execHash, (varParams_none_iff _).2 hvar]
  | hashRange hp hr => simp [exec, execHash, hp, pastTop, hr]

/-! ### Which statuses are reached (R129) -/

/-- The context that INIT sha3-256 makes right after reset. -/
def freshContext : State := initContext ⟨256, 136, true⟩ State.reset

/-- A check that can fail makes its command return its error. -/
theorem returns_of_endsWith_error {i : Instr} {s : State} {e : Status} (h : EndsWith s i e) (he : e ≠ .ok) :
    ∃ t, exec i s = .next t ∧ t.status = some e :=
  ⟨_, exec_of_endsWith_error h he, rfl⟩

theorem init_returns_iff (st : Status) :
    (∃ s t var, exec (.init var) s = .next t ∧ t.status = some st) ↔ st ∈ [.ok, .configurationError] := by
  constructor
  case mp =>
    rintro ⟨s, t, var, ht, hst⟩
    cases endsWith_of_status ht hst <;> decide
  case mpr =>
    simp only [List.mem_cons, List.not_mem_nil, or_false]
    rintro (rfl | rfl)
    · exact ⟨State.reset, _, 0, exec_init_next rfl _, rfl⟩
    · obtain ⟨t, ht⟩ := returns_of_endsWith_error (s := State.reset)
        (.initSelector (var := 8) (by decide)) (by decide)
      exact ⟨_, t, _, ht⟩

theorem update_returns_iff (st : Status) :
    (∃ s t src len, exec (.update src len) s = .next t ∧ t.status = some st) ↔
      st ∈ [.ok, .addressRangeError, .noContextError] := by
  constructor
  case mp =>
    rintro ⟨s, t, src, len, ht, hst⟩
    cases endsWith_of_status ht hst <;> decide
  case mpr =>
    simp only [List.mem_cons, List.not_mem_nil, or_false]
    rintro (rfl | rfl | rfl)
    · exact ⟨freshContext, _, 0, 0, exec_update_next rfl rfl ⟨by decide, backed_zero _ _⟩, rfl⟩
    · obtain ⟨t, ht⟩ := returns_of_endsWith_error (s := freshContext)
        (.updateRange (src := 0xFFFFFFFF) (len := 2) rfl rfl (by decide)) (by decide)
      exact ⟨_, t, _, _, ht⟩
    · obtain ⟨t, ht⟩ := returns_of_endsWith_error (s := State.reset)
        (.updateContext (src := 0) (len := 0) rfl) (by decide)
      exact ⟨_, t, _, _, ht⟩

theorem finalize_returns_iff (st : Status) :
    (∃ s t out, exec (.finalize out) s = .next t ∧ t.status = some st) ↔
      st ∈ [.ok, .bufferTooSmallError, .addressRangeError, .noContextError] := by
  constructor
  case mp =>
    rintro ⟨s, t, out, ht, hst⟩
    cases endsWith_of_status ht hst <;> decide
  case mpr =>
    simp only [List.mem_cons, List.not_mem_nil, or_false]
    rintro (rfl | rfl | rfl | rfl)
    · exact ⟨freshContext, _, .noBuffer, exec_finalize_noBuffer_next rfl, rfl⟩
    · obtain ⟨t, ht⟩ := returns_of_endsWith_error (s := freshContext)
        (.finalizeSize (cap := 31) (dst := 0) rfl (by decide)) (by decide)
      exact ⟨_, t, _, ht⟩
    · obtain ⟨t, ht⟩ := returns_of_endsWith_error (s := freshContext)
        (.finalizeRange (cap := 32) (dst := 0xFFFFFFE1) rfl (by decide) (by decide)) (by decide)
      exact ⟨_, t, _, ht⟩
    · obtain ⟨t, ht⟩ := returns_of_endsWith_error (s := State.reset)
        (.finalizeContext (out := .noBuffer) rfl) (by decide)
      exact ⟨_, t, _, ht⟩

theorem hash_returns_iff (st : Status) :
    (∃ s t var src len dst, exec (.hash var src len dst) s = .next t ∧ t.status = some st) ↔
      st ∈ [.ok, .configurationError, .addressRangeError] := by
  constructor
  case mp =>
    rintro ⟨s, t, var, src, len, dst, ht, hst⟩
    cases endsWith_of_status ht hst <;> decide
  case mpr =>
    simp only [List.mem_cons, List.not_mem_nil, or_false]
    rintro (rfl | rfl | rfl)
    · have hd : usable State.reset 0 32 := by decide
      exact ⟨State.reset, _, 5, 0, 0, 0, exec_hash_next rfl ⟨by decide, backed_zero _ _⟩ hd, rfl⟩
    · obtain ⟨t, ht⟩ := returns_of_endsWith_error (s := State.reset)
        (.hashSelector (var := 8) (src := 0) (len := 0) (dst := 0) (by decide)) (by decide)
      exact ⟨_, t, _, _, _, _, ht⟩
    · obtain ⟨t, ht⟩ := returns_of_endsWith_error (s := State.reset)
        (.hashRange (var := 5) (src := 0xFFFFFFFF) (len := 2) (dst := 0) rfl (by decide)) (by decide)
      exact ⟨_, t, _, _, _, _, ht⟩

theorem runDesc_command {d : Desc} {i : Instr} (hd : decode d = .command i) (s : State) : runDesc d s = exec i s := by
  rw [runDesc, hd]

theorem runDesc_illegal {d : Desc} {why : IllegalReason} (hd : decode d = .illegal why) (s : State) :
    runDesc d s = .next { s with status := some .illegalCommandError } := by
  rw [runDesc, hd, raise_eq]

theorem runDesc_illegal_status {d : Desc} {why : IllegalReason} {s t : State} (hd : decode d = .illegal why)
    (ht : runDesc d s = .next t) : t.status = some .illegalCommandError := by
  rw [runDesc_illegal hd, Host.Outcome.next.injEq] at ht
  rw [← ht]

theorem illegal_returns_iff (st : Status) :
    (∃ s t d why, decode d = .illegal why ∧ runDesc d s = .next t ∧ t.status = some st) ↔
      st = .illegalCommandError := by
  constructor
  case mp =>
    rintro ⟨s, t, d, why, hd, ht, hst⟩
    exact Option.some.inj (hst.symm.trans (runDesc_illegal_status hd ht))
  case mpr =>
    rintro rfl
    have hd : decode 0 = .illegal .reservedOpcode := by decide
    exact ⟨State.reset, _, 0, _, hd, runDesc_illegal hd _, rfl⟩

/-! ### What a step does where no command runs -/

theorem step_idle {s : State} (hp : s.port = []) : step s = .next { s with status := none } := by
  simp only [step, hp, idle]

theorem step_store {s : State} {addr : BitVec 32} {b : Byte} {rest : List HostAction}
    (hp : s.port = .store addr b :: rest) :
    step s = if admits s.hmAdmit addr.toNat then
        .next { s with hm := writeByte s.hm addr.toNat b, port := rest, status := none }
      else .refused .unbackedAddress := by
  simp only [step, hp, takeAction, hostStore]

theorem step_illegal {s : State} {d : Desc} {rest : List HostAction} {why : IllegalReason}
    (hp : s.port = .issue d :: rest) (hd : decode d = .illegal why) :
    step s = .next { s with port := rest, status := some .illegalCommandError } := by
  rw [step_issue hp, runDesc_illegal hd]

/-! ### Where every address is backed nothing is refused -/

/-- A refused command names an address of the space that no memory backs (R43). -/
theorem exec_refused_unbacked {i : Instr} {s : State} {r : Refusal} (h : exec i s = .refused r) :
    ∃ a, a < 2 ^ 32 ∧ admits s.hmAdmit a = false := by
  obtain ⟨hinit, hclose, hupdate, hfinalize, hhash⟩ := refusedExactlyForUnbackedRange s
  match i with
  | .init var => exact absurd h (hinit r var)
  | .finalize .noBuffer => exact absurd h (hclose r)
  | .update src len =>
    obtain ⟨-, -, hr, k, hk, ha⟩ := (hupdate r src len).1 h
    exact ⟨_, by omega, ha⟩
  | .finalize (.buffer cap dst) =>
    obtain ⟨-, -, -, hr, k, hk, ha⟩ := (hfinalize r cap dst).1 h
    exact ⟨_, by omega, ha⟩
  | .hash var src len dst =>
    obtain ⟨-, p, -, hs, hd, ⟨k, hk, ha⟩ | ⟨k, hk, ha⟩⟩ := (hhash r var src len dst).1 h
    · exact ⟨_, by omega, ha⟩
    · exact ⟨_, by omega, ha⟩

theorem exec_next_of_backed {s : State} (hall : ∀ a : Nat, a < 2 ^ 32 → admits s.hmAdmit a = true) (i : Instr) :
    ∃ t, exec i s = .next t := by
  cases h : exec i s with
  | next t => exact ⟨t, rfl⟩
  | fault f => exact absurd h (exec_ne_fault i s f)
  | refused r =>
    obtain ⟨a, ha, hunbacked⟩ := exec_refused_unbacked h
    exact absurd (hall a ha) (by simp [hunbacked])

theorem step_next_of_backed {s : State} (hall : ∀ a : Nat, a < 2 ^ 32 → admits s.hmAdmit a = true) :
    ∃ t, step s = .next t := by
  match hp : s.port with
  | [] => exact ⟨_, step_idle hp⟩
  | .store addr b :: rest => exact ⟨_, (step_store hp).trans (if_pos (hall _ addr.isLt))⟩
  | .issue d :: rest =>
    rw [step_issue hp]
    cases hd : decode d with
    | command i =>
      rw [runDesc_command hd]
      exact exec_next_of_backed (s := { s with port := rest }) hall i
    | illegal why => exact ⟨_, runDesc_illegal hd _⟩

end Sys2Proof.Machine
end

section
/-! SUPPORT. The claims of 60_exceptions.md. -/

namespace Sys2Proof.Machine

/-- Settles O10: a store writes one byte of a canonical memory. -/
theorem stepIdlesOrTakesHostStore : Obligations.StepIdlesOrTakesHostStore := by
  refine ⟨fun s => step_idle, fun s addr b rest hp hmem => ⟨fun ha => ?backed, fun ha => ?unbacked⟩⟩
  case backed =>
    obtain ⟨hwf, -⟩ := (memoryOk_iff s).1 hmem
    exact ⟨_, (step_store hp).trans (if_pos ha), rfl, readByte_writeByte hwf addr.toNat b⟩
  case unbacked => exact (step_store hp).trans (if_neg (by simp [ha]))

/-- Settles O35, by everything a command can have done. -/
theorem failedCommandChangesNothing : Obligations.FailedCommandChangesNothing := by
  intro i s t ht hst
  cases exec_next_cases ht with
  | failed => rfl
  | _ => exact absurd rfl hst

/-- Settles O36, form by form: every way to end has a status of its row, and each status of the row has a witness. -/
theorem statusesOfEachCommand : Obligations.StatusesOfEachCommand := fun st =>
  ⟨init_returns_iff st, update_returns_iff st, finalize_returns_iff st, hash_returns_iff st, illegal_returns_iff st⟩

/-- Settles O37: each way to end names the first check that fails. -/
theorem checksComeInOrder : Obligations.ChecksComeInOrder := by
  intro s t
  refine ⟨fun d why => runDesc_illegal_status, fun var ht => ?init, fun src len ht => ?update, fun ht => ?close,
    fun cap dst ht => ?write, fun var src len dst ht => ?hash⟩ <;>
  obtain ⟨st, hst, hends⟩ := exec_next_status ht <;>
  rw [hst]
  case init =>
    cases hends with
    | initSelector hvar => rw [if_pos hvar]
    | init hvar => rw [if_neg (by omega)]
  case update =>
    cases hends with
    | updateContext hv => rw [if_pos hv]
    | updateFinalized hv hf => rw [if_neg (by simp [hv]), if_pos hf]
    | updateRange hv hf hr => rw [if_neg (by simp [hv]), if_neg (by simp [hf]), if_pos hr]
    | update hv hf hr => rw [if_neg (by simp [hv]), if_neg (by simp [hf]), if_neg (Nat.not_lt.2 hr)]
  case close =>
    cases hends with
    | finalizeContext hv => rw [if_pos hv]
    | finalizeNoBuffer hv => rw [if_neg (by simp [hv])]
  case write =>
    cases hends with
    | finalizeContext hv => rw [if_pos hv]
    | finalizeSize hv hc => rw [if_neg (by simp [hv]), if_pos hc]
    | finalizeRange hv hc hr => rw [if_neg (by simp [hv]), if_neg (Nat.not_lt.2 hc), if_pos hr]
    | finalizeBuffer hv hc hr => rw [if_neg (by simp [hv]), if_neg (Nat.not_lt.2 hc), if_neg (Nat.not_lt.2 hr)]
  case hash =>
    cases hends with
    | hashSelector hvar => rw [if_pos hvar]
    | hashRange hp hr =>
      rw [if_neg (Nat.not_lt.2 (toNat_le_of_varParams hp)), if_pos (varParams_dlen hp ▸ hr)]
    | hash hp hs hd =>
      rw [if_neg (Nat.not_lt.2 (toNat_le_of_varParams hp)),
        if_neg (not_or.2 ⟨Nat.not_lt.2 hs, varParams_dlen hp ▸ Nat.not_lt.2 hd⟩)]

/-- Settles O38: the two ways to end with ConfigurationError. -/
theorem invalidSelectorIsConfigurationError : Obligations.InvalidSelectorIsConfigurationError := by
  constructor
  case left =>
    intro s var src len dst hvar
    exact ⟨exec_of_endsWith_error (.initSelector hvar) (by decide),
      exec_of_endsWith_error (.hashSelector hvar) (by decide)⟩
  case right =>
    intro i s t ht hst
    cases endsWith_of_status ht hst with
    | initSelector hvar => exact ⟨_, hvar, .inl rfl⟩
    | hashSelector hvar => exact ⟨_, hvar, .inr ⟨_, _, _, rfl⟩⟩

/-- Settles O39: the three ways to end with AddressRangeError. -/
theorem rangePastTopIsAddressRangeError : Obligations.RangePastTopIsAddressRangeError := by
  intro s
  refine ⟨fun src len hv hf hr => ?update, fun cap dst hv hc hr => ?finalize, fun var p src len dst hp hr => ?hash,
    fun i t ht hst => ?only⟩
  case update => exact exec_of_endsWith_error (.updateRange hv hf hr) (by decide)
  case finalize => exact exec_of_endsWith_error (.finalizeRange hv hc hr) (by decide)
  case hash => exact exec_of_endsWith_error (.hashRange hp hr) (by decide)
  case only =>
    cases endsWith_of_status ht hst with
    | updateRange hv hf hr => exact .inl ⟨_, _, rfl, hv, hf, hr⟩
    | finalizeRange hv hc hr => exact .inr (.inl ⟨_, _, rfl, hv, hc, hr⟩)
    | hashRange hp hr => exact .inr (.inr ⟨_, _, _, _, _, rfl, hp, hr⟩)

/-- Settles O40: the two ways to end with NoContextError. -/
theorem noContextMeansNoContextError : Obligations.NoContextMeansNoContextError := by
  intro s
  refine ⟨fun hv => ⟨fun src len => ?update, fun out => ?finalize⟩, fun i t ht hst => ?only⟩
  case update => exact exec_of_endsWith_error (.updateContext hv) (by decide)
  case finalize => exact exec_of_endsWith_error (.finalizeContext hv) (by decide)
  case only =>
    cases endsWith_of_status ht hst with
    | updateContext hv => exact ⟨hv, .inl ⟨_, _, rfl⟩⟩
    | finalizeContext hv => exact ⟨hv, .inr ⟨_, rfl⟩⟩

/-- Settles O41: the one way to end with BufferTooSmallError. -/
theorem smallBufferIsBufferTooSmallError : Obligations.SmallBufferIsBufferTooSmallError := by
  intro s
  refine ⟨fun cap dst hv hc => ?small, fun i t ht hst => ?only⟩
  case small => exact exec_of_endsWith_error (.finalizeSize hv hc) (by decide)
  case only =>
    cases endsWith_of_status ht hst with
    | finalizeSize hv hc => exact ⟨_, _, rfl, hv, hc⟩

/-- Settles O42: a refusal would name an address that is not backed, and no fault exists. -/
theorem everyCommandEnds : Obligations.EveryCommandEnds := by
  intro s hall
  refine ⟨fun i => ?command, step_next_of_backed hall⟩
  obtain ⟨t, ht⟩ := exec_next_of_backed hall i
  obtain ⟨st, hst, -⟩ := exec_next_status ht
  exact ⟨t, ht, by simp [hst]⟩

/-- Settles O9, by what a step does with an illegal descriptor. -/
theorem stepEndsIllegalDescriptor : Obligations.StepEndsIllegalDescriptor :=
  fun _ _ _ _ => step_illegal

/-- Settles O34, row by row of R119's table. -/
theorem statusCodes : Obligations.StatusCodes := by
  constructor
  case left =>
    simp only [List.forall_mem_cons]
    exact ⟨rfl, rfl, rfl, rfl, rfl, rfl, List.forall_mem_nil _⟩
  case right =>
    intro st
    cases st <;> decide

end Sys2Proof.Machine
end

section
/-! SUPPORT. The claims of 70_reset_and_hazards.md on the state after reset. -/

namespace Sys2Proof.Machine

/-- R5's default HM_ADMIT is the whole of the address space and no more. -/
theorem admits_wholeSpace (addr : Nat) :
    admits [⟨0, Config.addrTop⟩] addr = decide (addr < Config.addrTop) := by
  simp [admits, Region.holds]

/-- A memory that lists nothing is canonical and within any HM_ADMIT. -/
theorem memoryOk_of_hm_nil {s : State} (h : s.hm = []) : s.memoryOk = true := by
  rw [memoryOk_iff, h]
  exact ⟨rfl, List.forall_mem_nil _⟩

/-- Settles O11: VALID = 0 makes the core Empty (R110), and its one region is the address space. -/
theorem resetIsEmptyAndIdle : Obligations.ResetIsEmptyAndIdle :=
  ⟨rfl, (condition_empty_iff _).2 rfl, rfl, rfl, rfl, admits_wholeSpace⟩

/-- Settles O12: there is no context that could be illegal, and memory lists nothing. -/
theorem resetMeetsInvariant : Obligations.ResetMeetsInvariant :=
  (inv_iff _).2 ⟨contextOk_of_not_valid rfl, memoryOk_of_hm_nil rfl⟩

end Sys2Proof.Machine
end
